-- ==== Sys2Proof/Word.lean ====
section
/-! DEFINITION. The word types of RSACORE (spec/00_scope.md R10, R11; 20_memory.md R53, R59). -/

namespace Sys2Proof

/-- One byte lane of a bus word (R59). -/
abbrev Byte := BitVec 8

/-- A 32-bit bus word: one legal transaction's data (R52), a command word (R70), STATUS, CMD or ID. -/
abbrev BusWord := BitVec 32

/-- The contents of a W-bit register as its bus words, word 0 (bits [31:0]) first (R54). A register of width W holds
exactly NW = W / 32 words in every state that `Machine.Inv` admits (assumption 2). -/
abbrev Reg := List BusWord

end Sys2Proof
end

