-- ==== Sys2Proof/Config.lean ====
section
/-! DEFINITION. The parameters of an RSACORE implementation (spec/00_scope.md R8, R9) and this hardware's defaults. -/

namespace Sys2Proof

/-- R8: what a model takes as arguments. LATENCY is not here: it is drawn per command (`Machine.State.latency`).
BUS_BINDING is pin level and not modelled, and of RESET_BINDING the polarity is (assumptions 4, 8, 9). -/
structure Params where
  /-- `W`: the width in bits of every operand and result register. -/
  W : Nat
  /-- `WITNESSES`: the Miller-Rabin bases of ISPRIME, in order. -/
  witnesses : List Nat
  /-- `BASE`: the bus address of window offset 0. -/
  base : Nat
  /-- The level of the reset input that applies reset (the polarity part of RESET_BINDING). -/
  resetActive : Bool
deriving DecidableEq, Repr

/-- R9: the number of 32-bit bus words in an operand or result register. -/
def Params.NW (p : Params) : Nat := p.W / 32

/-- R8's values for this hardware: W = 64, WITNESSES = (2, 7, 61). BASE and the reset polarity are OPEN in the spec:
0 and active high are this model's choice (DESIGN CHOICE, assumption 8). -/
def Params.default : Params := { W := 64, witnesses := [2, 7, 61], base := 0, resetActive := true }

/-- A list of naturals in decimal, separated by commas. -/
def commaSeparated : List Nat → String
  | [] => ""
  | [n] => toString n
  | n :: m :: ns => toString n ++ "," ++ commaSeparated (m :: ns)

/-- R2: the configuration string `RSACORE-CMD v1 W=<W> WIT=<list>`. -/
def Params.configString (p : Params) : String :=
  "RSACORE-CMD v1 W=" ++ toString p.W ++ " WIT=" ++ commaSeparated p.witnesses

end Sys2Proof
end

