-- ==== Sys2Proof/Syntax.lean ====
section
/-! DEFINITION. The commands of RSACORE: one constructor per row of spec/opcode_table.json (spec/30_encoding.md R72).
A command word has no register, immediate or mode field (R70), so no constructor has an argument. -/

namespace Sys2Proof

/-- R5, R72: the eight commands. -/
inductive Instr where
  | mulmod
  | powmod
  | gcd
  | modinv
  | mrwit
  | isprime
  | encrypt
  | decrypt
deriving DecidableEq, Repr

end Sys2Proof
end

