-- ==== Sys2Proof/WellFormed.lean ====
section
/-! DEFINITION. What R8 requires of the parameters, which command words R73 calls legal, and the well-formedness of a
command. -/

namespace Sys2Proof

/-- R8: W is a multiple of 32. -/
def Params.widthAligned (p : Params) : Bool := p.W % 32 == 0

/-- R8: 32 <= W <= 512. -/
def Params.widthInRange (p : Params) : Bool := decide (32 ≤ p.W) && decide (p.W ≤ 512)

/-- R8: "every element must be < 2^W". -/
def Params.witnessesFit (p : Params) : Bool := p.witnesses.all fun a => decide (a < 2 ^ p.W)

/-- R8: BASE is aligned to 0x200. -/
def Params.baseAligned (p : Params) : Bool := p.base % 0x200 == 0

/-- The parameters an RSACORE may have (R8). -/
def Params.wf (p : Params) : Bool :=
  p.widthAligned && p.widthInRange && p.witnessesFit && p.baseAligned

/-- R70, R75: a command has no fields, so every term of `Instr` is well-formed. -/
def Instr.wf : Instr → Bool
  | .mulmod | .powmod | .gcd | .modinv | .mrwit | .isprime | .encrypt | .decrypt => true

/-- R73: a command word is legal when CMD[31:8] = 0 and CMD[7:0] is in 0x01-0x08. -/
def legalCommandWord (w : BusWord) : Bool :=
  decide (w.toNat / 256 = 0) && decide (1 ≤ w.toNat % 256) && decide (w.toNat % 256 ≤ 8)

end Sys2Proof
end

