-- ==== Sys2Proof/Decode.lean ====
section
/-! DEFINITION. Decoding a command word (spec/30_encoding.md R70, R72, R73, R77), on bus words and on byte lanes, and
the encoder. -/

namespace Sys2Proof

/-- Why a word is no command (R73). All of these complete with ILLEGAL; `notOneWord` cannot reach CMD, since every
legal access is one whole word (R52, R78). -/
inductive DecodeReject where
  /-- CMD[31:8] is not zero. -/
  | reservedBits
  /-- CMD[7:0] is 0x00 or in 0x09-0xFF. -/
  | reservedOpcode
  /-- The bytes given are not exactly one 32-bit word. -/
  | notOneWord
deriving DecidableEq, Repr

/-- What the decoder answers. -/
inductive Decoded where
  | command (i : Instr)
  | rejected (why : DecodeReject)
deriving DecidableEq, Repr

/-- One row of spec/opcode_table.json: a word w is the row's command when `w &&& mask = pattern`. -/
structure OpcodeRow where
  mask : BusWord
  pattern : BusWord
  instr : Instr
deriving DecidableEq, Repr

/-- spec/opcode_table.json, row by row: the table's "mask" and "match" (R72: `mask = 0xFFFF_FFFF`). -/
def opcodeTable : List OpcodeRow :=
  [ { mask := 0xFFFFFFFF, pattern := 0x00000001, instr := .mulmod },
    { mask := 0xFFFFFFFF, pattern := 0x00000002, instr := .powmod },
    { mask := 0xFFFFFFFF, pattern := 0x00000003, instr := .gcd },
    { mask := 0xFFFFFFFF, pattern := 0x00000004, instr := .modinv },
    { mask := 0xFFFFFFFF, pattern := 0x00000005, instr := .mrwit },
    { mask := 0xFFFFFFFF, pattern := 0x00000006, instr := .isprime },
    { mask := 0xFFFFFFFF, pattern := 0x00000007, instr := .encrypt },
    { mask := 0xFFFFFFFF, pattern := 0x00000008, instr := .decrypt } ]

/-- R70: the field RSVD, CMD[31:8]. -/
def cmdReserved (w : BusWord) : BitVec 24 := w.extractLsb' 8 24

/-- R70: the field OP, CMD[7:0]. -/
def cmdOpcode (w : BusWord) : BitVec 8 := w.extractLsb' 0 8

/-- R77's order: the reserved bits are looked at first, then the opcode. Total on every word. -/
def decode (w : BusWord) : Decoded :=
  if cmdReserved w ≠ 0 then .rejected .reservedBits
  else
    match opcodeTable.find? fun row => w &&& row.mask == row.pattern with
    | some row => .command row.instr
    | none => .rejected .reservedOpcode

/-- R59: the bus word whose byte lanes 0 to 3 are the four given bytes. -/
def wordOfLanes (b0 b1 b2 b3 : Byte) : BusWord := b3 ++ b2 ++ b1 ++ b0

/-- R59: byte lane j carries bits [8j+7:8j]. -/
def laneOfWord (w : BusWord) (j : Nat) : Byte := w.extractLsb' (8 * j) 8

/-- Decoding from the bytes as the bus lays them out, lane 0 first (R59). Total on every list of bytes. -/
def decodeBytes : List Byte → Decoded
  | [b0, b1, b2, b3] => decode (wordOfLanes b0 b1 b2 b3)
  | _ => .rejected .notOneWord

/-- R72: the command word of a command, `zext_32(OP)`. -/
def encode : Instr → BusWord
  | .mulmod => 0x00000001
  | .powmod => 0x00000002
  | .gcd => 0x00000003
  | .modinv => 0x00000004
  | .mrwit => 0x00000005
  | .isprime => 0x00000006
  | .encrypt => 0x00000007
  | .decrypt => 0x00000008

/-- The bytes of a bus word, lane 0 first. -/
def lanesOfWord (w : BusWord) : List Byte :=
  [laneOfWord w 0, laneOfWord w 1, laneOfWord w 2, laneOfWord w 3]

/-- The command word's bytes, lane 0 first. -/
def encodeBytes (i : Instr) : List Byte := lanesOfWord (encode i)

/-- The bus word of an opcode-table word given as a number of `nbits` bits; the bits above are zero. -/
def tableWord (nbits w : Nat) : BusWord := BitVec.ofNat 32 (w % 2 ^ nbits)

/-- The command the decoder reads from a table word. A row longer than 32 bits is no command: "Every command word is
exactly 32 bits, and no longer or shorter form exists" (R70). -/
def decodeTableWord (nbits w : Nat) : Option Instr :=
  if nbits ≤ 32 then
    match decodeBytes (lanesOfWord (tableWord nbits w)) with
    | .command i => some i
    | .rejected _ => none
  else none

end Sys2Proof
end

