-- ==== Sys2Proof/Machine/State.lean ====
section
/-! DEFINITION. The state of RSACORE (spec/10_state.md R20 to R35, R45), the host's moves and responses
(spec/20_memory.md R51, 70_reset_and_hazards.md R256), and the reasons a step can stop. -/

namespace Sys2Proof.Machine

/-- R34: the four legal values of STATUS.ERRCODE. The codes 0x4-0xF are never produced and have no constructor. -/
inductive ErrCode where
  | none
  | illegal
  | modzero
  | badarg
deriving DecidableEq, Repr

/-- R27: the fields of STATUS. The reserved bits read 0 and have no storage (`Status.word`). The host cannot write any
field, so the register is held as its fields (assumption 6). -/
structure Status where
  busy : Bool := false
  done : Bool := false
  err : Bool := false
  prime : Bool := false
  noinv : Bool := false
  ovr : Bool := false
  errcode : ErrCode := .none
deriving DecidableEq, Repr

/-- R77 `Outcome`: what a command's semantic function returns. `res` is an integer: the rules show it is below 2^W. -/
inductive Result where
  | ok (res : Nat) (prime noinv : Bool)
  | err (code : ErrCode)
deriving DecidableEq, Repr

/-- What the host can do on the bus (R51, R256). The value of a write is an n-byte value. `wait` and `waitDone` are
polling loops: each step of one is one read of STATUS. `wait` (R81) ends with the read that returns BUSY = 0, and
`waitDone`, the loop R251 warns of, with the read that returns DONE = 1 (assumption 7). -/
inductive HostMove where
  | read (off n : Nat)
  | write (off n : Nat) (v : BitVec (8 * n))
  | wait
  | waitDone
deriving DecidableEq, Repr

/-- R240, R256: a change of the reset input: how many steps of the host side pass before it, counted from the change
before, and the input's new level. It is no move of the host's program, so it can fall while a `wait` is pending (R251). -/
structure PinChange where
  after : Nat
  level : Bool
deriving DecidableEq, Repr

/-- R51: what the host gets back from a transaction. -/
inductive Response where
  | data (v : BusWord)
  | ok
  | busError
deriving DecidableEq, Repr

/-- The reasons the machine stops. -/
inductive Fault where
  /-- Raised by the host's step on a bus transaction while reset is applied: "A model treats it as a fault of the host
  program" (R242). Safe: the spec defines no effect and no response. -/
  | transactionDuringReset
deriving DecidableEq, Repr

/-- The reasons a step has no meaning. -/
inductive Refusal where
  /-- Raised by an arm of `exec` for a command that has no meaning yet; no arm does. Safe: the machine stops. -/
  | notModelled (mnemonic : String)
deriving DecidableEq, Repr

/-- The whole state: the parameters, the registers and latches of R20, the reset input, and the outside world. -/
structure State where
  /-- R8: the implementation's parameters; no step changes them. -/
  params : Params
  /-- R26. -/
  cmd : BusWord
  /-- R27. -/
  status : Status
  /-- R21. -/
  opa : Reg
  /-- R22. -/
  opb : Reg
  /-- R23. -/
  opm : Reg
  /-- R24. -/
  res : Reg
  /-- R35: the copy of CMD taken at acceptance. -/
  lcmd : BusWord
  /-- R35: the copy of OPA taken at acceptance. -/
  la : Reg
  /-- R35: the copy of OPB taken at acceptance. -/
  lb : Reg
  /-- R35: the copy of OPM taken at acceptance. -/
  lm : Reg
  /-- R240: the level of the reset input. -/
  resetPin : Bool
  /-- R240: the coming changes of the reset input, the next one first; the model's own field. -/
  pinChanges : List PinChange
  /-- The host's pending moves, oldest first (R50); the model's own field. -/
  host : List HostMove
  /-- The responses the host has got, newest first (R51); the model's own field. -/
  responses : List Response
  /-- R39: the LATENCY of the coming commands, in steps of the host side; the model's own field. -/
  latency : List Nat
  /-- The steps of the host side left before the command in flight completes; the model's own field. -/
  delay : Nat
deriving DecidableEq, Repr

/-- R45, R243: the machine right after reset is released, with the default parameters of R8. The fields that are the
model's own start empty (DESIGN CHOICE, assumptions 3, 4, 8, 16). -/
def State.reset : State where
  params := Params.default
  cmd := 0
  status := {}
  opa := List.replicate Params.default.NW 0
  opb := List.replicate Params.default.NW 0
  opm := List.replicate Params.default.NW 0
  res := List.replicate Params.default.NW 0
  lcmd := 0
  la := List.replicate Params.default.NW 0
  lb := List.replicate Params.default.NW 0
  lm := List.replicate Params.default.NW 0
  resetPin := !Params.default.resetActive
  pinChanges := []
  host := []
  responses := []
  latency := []
  delay := 0

end Sys2Proof.Machine
end

