-- ==== Sys2Proof/Machine/Flags.lean ====
section
/-! DEFINITION. STATUS: its word as the host reads it, and how acceptance, a dropped command and a completion write its
fields (spec/10_state.md R27, R34, R36, R37, R40). -/

namespace Sys2Proof.Machine

/-- R34: the 4-bit value of an error code. -/
def ErrCode.code : ErrCode → BitVec 4
  | .none => 0x0
  | .illegal => 0x1
  | .modzero => 0x2
  | .badarg => 0x3

/-- R27: the STATUS word, most significant field first: [31:12] reserved, ERRCODE, [7:6] reserved, OVR, NOINV, PRIME,
ERR, DONE, BUSY. -/
def Status.word (st : Status) : BusWord :=
  0#20 ++ st.errcode.code ++ 0#2 ++ BitVec.ofBool st.ovr ++ BitVec.ofBool st.noinv ++ BitVec.ofBool st.prime ++
    BitVec.ofBool st.err ++ BitVec.ofBool st.done ++ BitVec.ofBool st.busy

/-- R36: STATUS after an acceptance, 0x0000_0001. -/
def Status.accepted : Status := { busy := true }

/-- R37: STATUS after a dropped CMD write. -/
def Status.dropped (st : Status) : Status := { st with ovr := true }

/-- R40: STATUS after a completion with the given outcome; OVR is unchanged. -/
def Status.completed (st : Status) : Result → Status
  | .ok _ prime noinv =>
    { busy := false, done := true, err := false, prime := prime, noinv := noinv, ovr := st.ovr, errcode := .none }
  | .err code =>
    { busy := false, done := true, err := true, prime := false, noinv := false, ovr := st.ovr, errcode := code }

end Sys2Proof.Machine
end

