-- ==== Sys2Proof/Machine/Operands.lean ====
section
/-! DEFINITION. The operands of a command: the latched registers as unsigned integers (spec/30_encoding.md R75, R76). -/

namespace Sys2Proof.Machine

/-- R54, R76: the unsigned integer a register holds: word k is its bits [32k+31 : 32k]. -/
def regValue : Reg → Nat
  | [] => 0
  | w :: ws => w.toNat + 2 ^ 32 * regValue ws

/-- R54: the register of the given number of words that holds an integer; bits beyond the last word are dropped, and
R40 says that no result has any. -/
def regOfNat : Nat → Nat → Reg
  | 0, _ => []
  | words + 1, v => BitVec.ofNat 32 v :: regOfNat words (v / 2 ^ 32)

/-- R76: the first operand, the unsigned integer in LA. -/
def State.opA (s : State) : Nat := regValue s.la

/-- R76: the second operand, the unsigned integer in LB. -/
def State.opB (s : State) : Nat := regValue s.lb

/-- R76: the modulus operand, the unsigned integer in LM. -/
def State.opM (s : State) : Nat := regValue s.lm

end Sys2Proof.Machine

namespace Sys2Proof

/-- R75: the commands that read LA. -/
def Instr.readsA : Instr → Bool
  | .mulmod | .powmod | .gcd | .modinv | .mrwit | .encrypt | .decrypt => true
  | .isprime => false

/-- R75: the commands that read LB. -/
def Instr.readsB : Instr → Bool
  | .mulmod | .powmod | .gcd | .encrypt | .decrypt => true
  | .modinv | .mrwit | .isprime => false

/-- R75: the commands that read LM. -/
def Instr.readsM : Instr → Bool
  | .mulmod | .powmod | .modinv | .mrwit | .isprime | .encrypt | .decrypt => true
  | .gcd => false

end Sys2Proof
end

