-- ==== Sys2Proof/Machine/Ops.lean ====
section
/-! DEFINITION. The named operations over the registers: the register window (spec/20_memory.md), acceptance, dropped
commands and completion (spec/10_state.md R36 to R40), reset (spec/70_reset_and_hazards.md R240), and the host's step.
RSACORE has no trap entry and no return (60_exceptions.md R209, R210): its one way of taking a command error is the
error half of `State.complete`. -/

namespace Sys2Proof.Machine

/-! ### Register words -/

/-- R54: word k of a register, its slice [32k+31 : 32k]. -/
def regWord (r : Reg) (k : Nat) : BusWord := r.getD k 0

/-- R55: the register with word k replaced and every other word kept. -/
def setRegWord (r : Reg) (k : Nat) (v : BusWord) : Reg := r.set k v

/-- The W-bit registers with a slot in the window (R53). -/
inductive RegName where
  | opa
  | opb
  | opm
  | res
deriving DecidableEq, Repr

/-- R53: `slot(R)`, the offset of a register's slot. -/
def RegName.slot : RegName → Nat
  | .opa => 0x040
  | .opb => 0x080
  | .opm => 0x0C0
  | .res => 0x100

/-- Reading a W-bit register. -/
def State.reg (s : State) : RegName → Reg
  | .opa => s.opa
  | .opb => s.opb
  | .opm => s.opm
  | .res => s.res

/-- A host write to a W-bit register: RES is read-only and ignores it (R24, R56). -/
def State.setReg (s : State) (v : Reg) : RegName → State
  | .opa => { s with opa := v }
  | .opb => { s with opb := v }
  | .opm => { s with opm := v }
  | .res => s

/-! ### The register window -/

/-- What stands at a word offset of the window (R53). -/
inductive Slot where
  | id
  | cmd
  | status
  | reg (r : RegName) (k : Nat)
  | reserved
deriving DecidableEq, Repr

/-- R53, R57: word k of a register's slot; the slots beyond word NW-1 are unused and behave as reserved. -/
def Slot.word (p : Params) (r : RegName) (k : Nat) : Slot := if k < p.NW then .reg r k else .reserved

/-- R53: what stands at an offset of the first 0x40 bytes of the window. -/
def controlSlot (off : Nat) : Slot :=
  match off with
  | 0x000 => .id
  | 0x004 => .cmd
  | 0x008 => .status
  | _ => .reserved

/-- R53: the register map, for a word-aligned offset. "Each W-bit register has a 0x40-byte slot", so the offset divides
into the number of its 0x40-byte slot and the place of a word in it. -/
def slotAt (p : Params) (off : Nat) : Slot :=
  match off / 0x040 with
  | 0 => controlSlot off
  | 1 => Slot.word p .opa (off % 0x040 / 4)
  | 2 => Slot.word p .opb (off % 0x040 / 4)
  | 3 => Slot.word p .opm (off % 0x040 / 4)
  | 4 => Slot.word p .res (off % 0x040 / 4)
  | _ => .reserved

/-- R25: the ID constant, {0x5253, zext_16(W)}. -/
def idWord (p : Params) : BusWord := 0x5253#16 ++ BitVec.ofNat 16 p.W

/-- R53, R54, R57: what a legal read of a word offset returns. -/
def State.readWord (s : State) (off : Nat) : BusWord :=
  match slotAt s.params off with
  | .id => idWord s.params
  | .cmd => s.cmd
  | .status => s.status.word
  | .reg r k => regWord (s.reg r) k
  | .reserved => 0

/-- R59: the byte at a byte offset of the window, lane `off mod 4` of its word. Only a pin-level binding sees single
bytes; the frame statements read the window through it. -/
def State.windowByte (s : State) (off : Nat) : Byte := laneOfWord (s.readWord (off - off % 4)) (off % 4)

/-- R59: the bus address of byte lane j of the word at an offset. -/
def laneAddress (p : Params) (off j : Nat) : Nat := p.base + off + j

/-- R52: `BusAccessOK`. -/
def busAccessOK (off n : Nat) : Bool := decide (n = 4) && decide (off % 4 = 0) && decide (off < 0x200)

/-! ### Commands -/

/-- R36: acceptance of the command word v. -/
def State.accept (s : State) (v : BusWord) : State :=
  { s with cmd := v, lcmd := v, la := s.opa, lb := s.opb, lm := s.opm, status := Status.accepted }

/-- R37: a CMD write dropped while BUSY = 1. -/
def State.dropCommand (s : State) : State := { s with status := s.status.dropped }

/-- R39: the LATENCY of the command just accepted is drawn; with no draw left it is 0 (assumption 4). -/
def State.drawLatency (s : State) : State := { s with delay := s.latency.headD 0, latency := s.latency.tail }

/-- R36, R37: a write of CMD. -/
def State.writeCmd (s : State) (v : BusWord) : State :=
  if s.status.busy then s.dropCommand else (s.accept v).drawLatency

/-- R40: what a completion leaves in RES, a register of the given number of words: a success writes it, an error leaves
it. -/
def completedRes (words : Nat) (old : Reg) : Result → Reg
  | .ok res _ _ => regOfNat words res
  | .err _ => old

/-- R40: the completion step, for a success and for a command error alike (R200, R209). -/
def State.complete (s : State) (out : Result) : State :=
  { s with res := completedRes s.params.NW s.res out, status := s.status.completed out }

/-! ### Transactions -/

/-- R53 to R57, R36, R37: the effect of a legal write. -/
def State.writeWord (s : State) (off : Nat) (v : BusWord) : State :=
  match slotAt s.params off with
  | .id => s
  | .cmd => s.writeCmd v
  | .status => s
  | .reg r k => s.setReg (setRegWord (s.reg r) k v) r
  | .reserved => s

/-- R51, R52, R58: the response to `BusRead(off, n)`, which changes no state. -/
def State.busRead (s : State) (off n : Nat) : Response :=
  if busAccessOK off n then .data (s.readWord off) else .busError

/-- R51, R52: the effect of `BusWrite(off, n, v)`. -/
def State.busWrite (s : State) (off n : Nat) (v : BitVec (8 * n)) : State :=
  if busAccessOK off n then s.writeWord off (v.setWidth 32) else s

/-- R52, R56, R57: the response to `BusWrite(off, n, v)`. -/
def busWriteResponse (off n : Nat) : Response := if busAccessOK off n then .ok else .busError

/-! ### Reset -/

/-- R240: reset is applied while its input is at the active level. -/
def State.inReset (s : State) : Bool := s.resetPin == s.params.resetActive

/-- A W-bit register that holds 0. -/
def zeroReg (p : Params) : Reg := List.replicate p.NW 0

/-- R45, R240, R241: every register and latch takes its reset value, and a command in flight is aborted. -/
def State.resetRegisters (s : State) : State :=
  { s with
    cmd := 0, status := {}, opa := zeroReg s.params, opb := zeroReg s.params, opm := zeroReg s.params,
    res := zeroReg s.params, lcmd := 0, la := zeroReg s.params, lb := zeroReg s.params, lm := zeroReg s.params,
    delay := 0 }

/-- R240: the reset input takes a level. -/
def State.driveReset (s : State) (level : Bool) : State :=
  if level == s.params.resetActive then { s with resetPin := level }.resetRegisters else { s with resetPin := level }

/-- R240: the change of the reset input that is due now, if one is. -/
def State.dueChange (s : State) : Option Bool :=
  match s.pinChanges with
  | { after := 0, level := level } :: _ => some level
  | _ => none

/-- R240, R241: the step in which the reset input takes the level that is due. It is no step of the host's program:
pending moves, a `wait` among them, stay pending (R251). -/
def State.pinStep (s : State) (level : Bool) : State := { s with pinChanges := s.pinChanges.tail }.driveReset level

/-! ### The host's step -/

/-- The host has got a response. -/
def State.respond (s : State) (r : Response) : State := { s with responses := r :: s.responses }

/-- The coming changes of the reset input after a step of the host side: the next one is a step nearer. -/
def countDown : List PinChange → List PinChange
  | [] => []
  | c :: rest => { c with after := c.after - 1 } :: rest

/-- A step of the host side passes: the command in flight is that much nearer to its completion (R39), and so is the
next change of the reset input. -/
def State.elapse (s : State) : State := { s with delay := s.delay - 1, pinChanges := countDown s.pinChanges }

/-- The state with the given moves pending. -/
def State.withHost (s : State) (moves : List HostMove) : State := { s with host := moves }

/-- R81: one read of STATUS in a polling loop. The loop stays pending unless the read ends it. -/
def State.pollStep (s : State) (ends : Bool) (rest : List HostMove) : State :=
  (if ends then s.withHost rest else s).respond (s.busRead 0x008 4)

/-- R50: one step of the host side: its next move, performed completely. With no move pending nothing happens (R216).
R242: a transaction while reset is applied is a fault of the host. -/
def hostStep (s : State) : Host.Outcome State Fault Refusal :=
  match s.host with
  | [] => .next s
  | .read off n :: rest =>
    if s.inReset then .fault .transactionDuringReset else .next ((s.withHost rest).respond (s.busRead off n))
  | .write off n v :: rest =>
    if s.inReset then .fault .transactionDuringReset
    else .next (((s.withHost rest).busWrite off n v).respond (busWriteResponse off n))
  | .wait :: rest =>
    if s.inReset then .fault .transactionDuringReset else .next (s.pollStep (!s.status.busy) rest)
  | .waitDone :: rest =>
    if s.inReset then .fault .transactionDuringReset else .next (s.pollStep s.status.done rest)

end Sys2Proof.Machine
end

