-- ==== Sys2Proof/Machine/ModMul.lean ====
section
/-! DEFINITION. MULMOD and POWMOD (spec/40_modmul_powmod.md). -/

namespace Sys2Proof.Machine

/-- R100: the modular product, exact before the reduction. -/
def mulMod (a b m : Nat) : Nat := a * b % m

/-- R105: the square-and-multiply loop, right to left over the bits of e. The first argument bounds the rounds:
bitlength(e) rounds empty e. -/
def powLoop : Nat → Nat → Nat → Nat → Nat → Nat
  | 0, r, _, _, _ => r
  | rounds + 1, r, x, e, m =>
    if e = 0 then r
    else powLoop rounds (if e % 2 = 1 then mulMod r x m else r) (mulMod x x m) (e / 2) m

/-- R103, R105: x^e mod m, for m >= 1. -/
def powMod (x e m : Nat) : Nat := powLoop (e.log2 + 1) (1 % m) (x % m) e m

/-- R101 `MULMOD_f`. -/
def mulmodF (a b m : Nat) : Result := if m = 0 then .err .modzero else .ok (mulMod a b m) false false

/-- R104 `POWMOD_f`. -/
def powmodF (x e m : Nat) : Result := if m = 0 then .err .modzero else .ok (powMod x e m) false false

/-- R101: MULMOD. -/
def execMulmod (s : State) : Host.Outcome State Fault Refusal := .next (s.complete (mulmodF s.opA s.opB s.opM))

/-- R104: POWMOD. -/
def execPowmod (s : State) : Host.Outcome State Fault Refusal := .next (s.complete (powmodF s.opA s.opB s.opM))

end Sys2Proof.Machine
end

