-- ==== Sys2Proof/Machine/Cipher.lean ====
section
/-! DEFINITION. ENCRYPT and DECRYPT (spec/43_cipher.md). -/

namespace Sys2Proof.Machine

/-- R160 `ENCRYPT_f`: MODZERO before BADARG (R204). -/
def encryptF (byte e n : Nat) : Result :=
  if n = 0 then .err .modzero
  else if 255 < byte then .err .badarg
  else .ok (powMod byte e n) false false

/-- R161 `DECRYPT_f`: the low 8 bits of the power, zero-extended. -/
def decryptF (c d n : Nat) : Result := if n = 0 then .err .modzero else .ok (powMod c d n % 256) false false

/-- R160: ENCRYPT. -/
def execEncrypt (s : State) : Host.Outcome State Fault Refusal := .next (s.complete (encryptF s.opA s.opB s.opM))

/-- R161: DECRYPT. -/
def execDecrypt (s : State) : Host.Outcome State Fault Refusal := .next (s.complete (decryptF s.opA s.opB s.opM))

end Sys2Proof.Machine
end

