-- ==== Sys2Proof/Machine/Euclid.lean ====
section
/-! DEFINITION. GCD and MODINV (spec/41_gcd_modinv.md). -/

namespace Sys2Proof.Machine

/-- R120: Euclid's loop. The first argument bounds the rounds: b falls in each, so b + 1 rounds suffice. -/
def gcdLoop : Nat → Nat → Nat → Nat
  | 0, a, _ => a
  | rounds + 1, a, b => if b = 0 then a else gcdLoop rounds b (a % b)

/-- R120: the greatest common divisor, gcd(0, 0) = 0. -/
def euclidGcd (a b : Nat) : Nat := gcdLoop (b + 1) a b

/-- R124: the extended Euclid loop; it answers the last r0 and s0. r0 - q * r1 is r0 mod r1. -/
def extGcdLoop : Nat → Nat → Nat → Int → Int → Nat × Int
  | 0, r0, _, s0, _ => (r0, s0)
  | rounds + 1, r0, r1, s0, s1 =>
    if r1 = 0 then (r0, s0)
    else extGcdLoop rounds r1 (r0 % r1) s1 (s0 - ((r0 / r1 : Nat) : Int) * s1)

/-- R123, R124: the inverse of a modulo m in [0, m), or none. -/
def modInverse (a m : Nat) : Option Nat :=
  if m ≤ 1 then none
  else
    let rs := extGcdLoop (m + 1) a m 1 0
    if rs.1 ≠ 1 then none else some (rs.2 % (m : Int)).toNat

/-- R121 `GCD_f`. -/
def gcdF (a b : Nat) : Result := .ok (euclidGcd a b) false false

/-- R126 `MODINV_f`. -/
def modinvF (a m : Nat) : Result :=
  match modInverse a m with
  | none => .ok 0 false true
  | some v => .ok v false false

/-- R121: GCD. -/
def execGcd (s : State) : Host.Outcome State Fault Refusal := .next (s.complete (gcdF s.opA s.opB))

/-- R126: MODINV. -/
def execModinv (s : State) : Host.Outcome State Fault Refusal := .next (s.complete (modinvF s.opA s.opM))

end Sys2Proof.Machine
end

