-- ==== Sys2Proof/Machine/Primality.lean ====
section
/-! DEFINITION. MRWIT and ISPRIME (spec/42_primality.md). -/

namespace Sys2Proof.Machine

/-- R18, R140: the outcome of one witness round. -/
inductive RoundOutcome where
  | composite
  | pass
  | skipped
deriving DecidableEq, Repr

/-- R140: 0 = COMPOSITE, 1 = PASS, 2 = SKIPPED. -/
def RoundOutcome.code : RoundOutcome → Nat
  | .composite => 0
  | .pass => 1
  | .skipped => 2

/-- R141: halving d while it is even, counting in s. The first argument bounds the rounds. -/
def decomposeLoop : Nat → Nat → Nat → Nat × Nat
  | 0, d, s => (d, s)
  | rounds + 1, d, s => if d % 2 = 0 then decomposeLoop rounds (d / 2) (s + 1) else (d, s)

/-- R141: the pair (d, s) with v = d * 2^s and d odd, for v >= 1. -/
def decompose (v : Nat) : Nat × Nat := decomposeLoop (v.log2 + 1) v 0

/-- R140: `repeat k times`: square x and look for n - 1. -/
def squareLoop : Nat → Nat → Nat → RoundOutcome
  | 0, _, _ => .composite
  | k + 1, x, n => if mulMod x x n = n - 1 then .pass else squareLoop k (mulMod x x n) n

/-- R140: one Miller-Rabin round of witness a, for odd n >= 3. -/
def mrRound (a n : Nat) : RoundOutcome :=
  if n ≤ a then .skipped
  else
    let ds := decompose (n - 1)
    let x := powMod a ds.1 n
    if x = 1 ∨ x = n - 1 then .pass else squareLoop (ds.2 - 1) x n

/-- R143: the test of n over a witness list. -/
def isPrimeAlg (witnesses : List Nat) (n : Nat) : Bool :=
  if n ≤ 3 then n == 2 || n == 3
  else if n % 2 = 0 then false
  else witnesses.all fun a => mrRound a n != .composite

/-- R142 `MRWIT_f`. -/
def mrwitF (a n : Nat) : Result :=
  if n < 3 ∨ n % 2 = 0 then .err .badarg
  else .ok (mrRound a n).code (mrRound a n != .composite) false

/-- R144 `ISPRIME_f`. -/
def isprimeF (witnesses : List Nat) (n : Nat) : Result :=
  .ok (isPrimeAlg witnesses n).toNat (isPrimeAlg witnesses n) false

/-- R142: MRWIT. -/
def execMrwit (s : State) : Host.Outcome State Fault Refusal := .next (s.complete (mrwitF s.opA s.opM))

/-- R144: ISPRIME. -/
def execIsprime (s : State) : Host.Outcome State Fault Refusal :=
  .next (s.complete (isprimeF s.params.witnesses s.opM))

end Sys2Proof.Machine
end

