-- ==== Sys2Proof/Machine/Dispatch.lean ====
section
/-! DEFINITION. One arm per command: its completion step (spec/30_encoding.md R77, 10_state.md R40). -/

namespace Sys2Proof.Machine

def exec (i : Instr) (s : State) : Host.Outcome State Fault Refusal :=
  match i with
  | .mulmod => Sys2Proof.Machine.execMulmod s
  | .powmod => Sys2Proof.Machine.execPowmod s
  | .gcd => Sys2Proof.Machine.execGcd s
  | .modinv => Sys2Proof.Machine.execModinv s
  | .mrwit => Sys2Proof.Machine.execMrwit s
  | .isprime => Sys2Proof.Machine.execIsprime s
  | .encrypt => Sys2Proof.Machine.execEncrypt s
  | .decrypt => Sys2Proof.Machine.execDecrypt s

end Sys2Proof.Machine
end

