-- ==== Sys2Proof/Machine/Engine.lean ====
section
/-! DEFINITION. Whose turn it is, the engine's step, which is the completion of the command in flight (spec/10_state.md
R39, R40), and how a command word given from outside comes to be in flight. -/

namespace Sys2Proof.Machine

/-- The three kinds of event (R205): a change of the reset input, a completion step, a step of the host. -/
inductive Turn where
  | reset (level : Bool)
  | engine
  | host
deriving DecidableEq, Repr

/-- R205, R39: a change of the reset input that is due takes priority over everything; else the engine completes when a
command is in flight, reset is not applied (R241) and its LATENCY has run out; else it is the host's turn. -/
def State.turn (s : State) : Turn :=
  match s.dueChange with
  | some level => .reset level
  | none => if s.status.busy && !s.inReset && s.delay == 0 then .engine else .host

/-- R36, R40: decoding happens at completion, from the latched word LCMD. -/
def State.fetch (s : State) : Decoded := decode s.lcmd

/-- R40, R77: the completion step. A word that is no command completes with ILLEGAL (R201). -/
def engineStep (s : State) : Host.Outcome State Fault Refusal :=
  match s.fetch with
  | .command i => exec i s
  | .rejected _ => .next (s.complete (.err .illegal))

/-- The state in which the host's write of the command word v has just been accepted (R36) and its completion is the
next step: LATENCY 0, reset not applied, and no change of the reset input to come (assumption 5). -/
def State.withCommand (s : State) (v : BusWord) : State :=
  { s.accept v with delay := 0, resetPin := !s.params.resetActive, pinChanges := [] }

end Sys2Proof.Machine
end

