-- ==== Sys2Proof/Machine/Step.lean ====
section
/-! DEFINITION. One step of the machine: a change of the reset input, the engine's completion, or the host's next move
(spec/20_memory.md R50, R61; 60_exceptions.md R205). -/

namespace Sys2Proof.Machine

/-- R39, R50, R205: one event, whichever has its turn. -/
def step (s : State) : Host.Outcome State Fault Refusal :=
  match s.turn with
  | .reset level => .next (s.pinStep level)
  | .engine => engineStep s
  | .host => hostStep s.elapse

/-- s with the given table word accepted as a command, so that the next step is its completion (assumption 5). -/
def State.withFetchWord (s : State) (nbits w : Nat) : State := s.withCommand (tableWord nbits w)

end Sys2Proof.Machine
end

