-- ==== Sys2Proof/Machine/Script.lean ====
section
/-! DEFINITION. The host statements of spec/30_encoding.md R79 to R81 as lists of the host's moves. Host variables,
labels and branches belong to the host processor (R80) and are not here; `wait` is a move of its own (`HostMove`). -/

namespace Sys2Proof.Machine

/-- R79: the lower-case mnemonic of a command. -/
def mnemonic : Instr → String
  | .mulmod => "mulmod"
  | .powmod => "powmod"
  | .gcd => "gcd"
  | .modinv => "modinv"
  | .mrwit => "mrwit"
  | .isprime => "isprime"
  | .encrypt => "encrypt"
  | .decrypt => "decrypt"

/-- R80: `wr OFF, V`. -/
def wr (off : Nat) (v : BusWord) : HostMove := .write off 4 v

/-- R80: `rd OFF`. -/
def rd (off : Nat) : HostMove := .read off 4

/-- R80: `cmd.raw V`. -/
def cmdRaw (v : BusWord) : HostMove := wr 0x004 v

/-- R80: `cmd MNEMONIC`. -/
def cmd (i : Instr) : HostMove := cmdRaw (encode i)

/-- R81: `ldop R, V`, for a register R and a value V. -/
def ldop (p : Params) (r : RegName) (v : Nat) : List HostMove :=
  (List.range p.NW).map fun k => wr (r.slot + 4 * k) (BitVec.ofNat 32 (v / 2 ^ (32 * k)))

/-- R81: the reads of `getres`. The value it assembles from the words read, word 0 first, is `regValue` of them. -/
def getres (p : Params) : List HostMove := (List.range p.NW).map fun k => rd (0x100 + 4 * k)

/-- R81: `run MN A, B, M`. -/
def runScript (p : Params) (i : Instr) (a b m : Nat) : List HostMove :=
  ldop p .opa a ++ ldop p .opb b ++ ldop p .opm m ++ [cmd i, .wait, rd 0x008] ++ getres p

end Sys2Proof.Machine
end

