-- ==== Sys2Proof/Safety.lean ====
section
/-! DEFINITION. The terms claims use: R77's Exec as a reference, the invariant of every state a run can be in, what the
host must keep to, and when a run is over. -/

namespace Sys2Proof.Machine

/-- R77: `Exec(c, a, b, m)`, written from its pseudocode on the raw command word, with no use of the decoder or of
`exec`. -/
def execReference (p : Params) (c : BusWord) (a b m : Nat) : Result :=
  if c.toNat / 2 ^ 8 ≠ 0 then .err .illegal
  else
    match c.toNat % 2 ^ 8 with
    | 0x01 => mulmodF a b m
    | 0x02 => powmodF a b m
    | 0x03 => gcdF a b
    | 0x04 => modinvF a m
    | 0x05 => mrwitF a m
    | 0x06 => isprimeF p.witnesses m
    | 0x07 => encryptF a b m
    | 0x08 => decryptF a b m
    | _ => .err .illegal

/-- The outcome R40 computes in a state: `Exec(LCMD, LA, LB, LM)`. -/
def State.outcome (s : State) : Result := execReference s.params s.lcmd s.opA s.opB s.opM

/-- R140: witness a fails for n, so n is rejected: a < n, and with n - 1 = d * 2^k for odd d neither is a^d = 1 (mod n)
nor does any of a^d, a^2d, ..., a^(2^(k-1) d) reach n - 1 (mod n). Written with powers, with no use of the model's
loops. -/
def RoundRejects (a n : Nat) : Prop :=
  a < n ∧ ∃ d k, d % 2 = 1 ∧ n - 1 = d * 2 ^ k ∧ a ^ d % n ≠ 1 ∧ ∀ r < k, a ^ (d * 2 ^ r) % n ≠ n - 1

/-- A W-bit register holds NW words, so a W-bit value (R9, R20, R54). -/
def fitsWidth (p : Params) (r : Reg) : Prop := r.length = p.NW

/-- What holds of every state a run can be in: the parameters are ones R8 allows, the registers are W bits wide, CMD
is the word latched (R26, R35, R36), and STATUS keeps R28 to R32. -/
structure Inv (s : State) : Prop where
  params_wf : s.params.wf = true
  opa_fits : fitsWidth s.params s.opa
  opb_fits : fitsWidth s.params s.opb
  opm_fits : fitsWidth s.params s.opm
  res_fits : fitsWidth s.params s.res
  la_fits : fitsWidth s.params s.la
  lb_fits : fitsWidth s.params s.lb
  lm_fits : fitsWidth s.params s.lm
  cmd_latched : s.cmd = s.lcmd
  not_busy_and_done : ¬(s.status.busy = true ∧ s.status.done = true)
  err_iff_code : s.status.err = true ↔ s.status.errcode ≠ .none
  err_done : s.status.err = true → s.status.done = true
  prime_report : s.status.prime = true →
    s.status.done = true ∧ s.status.err = false ∧ (decode s.cmd = .command .mrwit ∨ decode s.cmd = .command .isprime)
  noinv_report : s.status.noinv = true →
    s.status.done = true ∧ s.status.err = false ∧ decode s.cmd = .command .modinv ∧ regValue s.res = 0
  idle_no_delay : s.status.busy = false → s.delay = 0

/-- R209, R247: when DONE = 1 the flags are those of the outcome of the latched command, and RES is its result when
ERR = 0. -/
def ReportIsOfLatchedCommand (s : State) : Prop :=
  s.status.done = true → s.status = s.status.completed s.outcome ∧ s.res = completedRes s.params.NW s.res s.outcome

/-- R242, R246: the host's next move, when it is the host's turn, keeps its duties: no transaction while reset is applied
(every move is one), and no CMD write while BUSY = 1. -/
def State.hostDutyKept (s : State) : Bool :=
  match s.host with
  | [] => true
  | .write off n _ :: _ => !s.inReset && !(busAccessOK off n && off == 0x004 && s.status.busy)
  | .read .. :: _ | .wait :: _ | .waitDone :: _ => !s.inReset

/-- k steps of the machine, ending early at a fault or a refusal. -/
def runSteps : Nat → State → Host.Outcome State Fault Refusal
  | 0, s => .next s
  | k + 1, s =>
    match step s with
    | .next t => runSteps k t
    | .fault r => .fault r
    | .refused r => .refused r

/-- R255: the host's run is over: its last move has been performed and no command is in flight. -/
def State.runOver (s : State) : Prop := s.host = [] ∧ s.status.busy = false

end Sys2Proof.Machine
end

