-- ==== Sys2Proof/Certificates/Slice0/Obligations.lean ====
section
/-! DEFINITION. The statements for the provers. Everything under `Claim` is vocabulary of the statements, written from
the spec's rules and not from the model's operations. A statement is about every parameter choice that its hypotheses
allow, and every LATENCY: both are data of the state. -/

namespace Sys2Proof.Claim

open Sys2Proof Sys2Proof.Machine

/-- R40, first case: the whole state after a completion without error. -/
def completedOk (s : State) (r : Nat) (prime noinv : Bool) : State :=
  { s with
    res := regOfNat s.params.NW r
    status := { busy := false, done := true, err := false, prime := prime, noinv := noinv, ovr := s.status.ovr,
                errcode := .none } }

/-- R40, second case: the whole state after a completion with an error. -/
def completedErr (s : State) (code : ErrCode) : State :=
  { s with
    status := { busy := false, done := true, err := true, prime := false, noinv := false, ovr := s.status.ovr,
                errcode := code } }

/-- R36: the registers after the acceptance of the word v. -/
def acceptedRegisters (s : State) (v : BusWord) : State :=
  { s with
    cmd := v, lcmd := v, la := s.opa, lb := s.opb, lm := s.opm
    status := { busy := true, done := false, err := false, prime := false, noinv := false, ovr := false,
                errcode := .none } }

/-- R240: the reset input does not change before n more steps of the host side have passed, nor right after them. -/
def quietFor (n : Nat) (s : State) : Prop := ∀ c ∈ s.pinChanges.head?, n < c.after

/-- It is the host's turn: the reset input does not change now, and no command is in flight or its LATENCY has not run
out (R39). -/
def hostTurn (s : State) : Prop := quietFor 0 s ∧ (s.status.busy = false ∨ 0 < s.delay)

/-- A command is in flight, reset is not applied, and its completion is the next step (R39). -/
def completionDue (s : State) : Prop := quietFor 0 s ∧ s.status.busy = true ∧ s.inReset = false ∧ s.delay = 0

/-- R52: a legal access. -/
def legalAccess (off n : Nat) : Prop := n = 4 ∧ off % 4 = 0 ∧ off < 0x200

/-- R53: the offset of word k < NW of OPA, OPB or OPM. -/
def isOperandWord (p : Params) (off : Nat) : Prop :=
  ∃ k < p.NW, off = 0x040 + 4 * k ∨ off = 0x080 + 4 * k ∨ off = 0x0C0 + 4 * k

/-- R53: the offset of word k < NW of RES. -/
def isResultWord (p : Params) (off : Nat) : Prop := ∃ k < p.NW, off = 0x100 + 4 * k

/-- Every register, latch and input of R20, R35 and R240, and the parameters, are the same in both states. -/
def sameRegisters (s t : State) : Prop :=
  t.params = s.params ∧ t.cmd = s.cmd ∧ t.status = s.status ∧ t.opa = s.opa ∧ t.opb = s.opb ∧ t.opm = s.opm ∧
    t.res = s.res ∧ t.lcmd = s.lcmd ∧ t.la = s.la ∧ t.lb = s.lb ∧ t.lm = s.lm ∧ t.resetPin = s.resetPin

/-- A step performs the host's next move: the host gets the response x, and afterwards every register, latch and input is
as in u. What the step does to the time left, of the LATENCY and of the next change of the reset input, is left out. -/
def performs (s u : State) (x : Response) : Prop :=
  ∃ t, step s = .next t ∧ sameRegisters u t ∧ t.host = s.host.tail ∧ t.responses = x :: s.responses

/-- A step of the host that writes CMD with the word v. -/
def writesCmd (s : State) (v : BusWord) : Prop := ∃ rest, s.host = .write 0x004 4 v :: rest

/-- The reset input takes its active level now. -/
def appliesReset (s : State) : Prop := ∃ rest, s.pinChanges = { after := 0, level := s.params.resetActive } :: rest

/-- R146: the squaring loop of a round, ended early once x = 1. -/
def squareLoopEarly : Nat → Nat → Nat → RoundOutcome
  | 0, _, _ => .composite
  | k + 1, x, n =>
    if x * x % n = n - 1 then .pass
    else if x * x % n = 1 then .composite
    else squareLoopEarly k (x * x % n) n

end Sys2Proof.Claim

open Sys2Proof Sys2Proof.Machine Sys2Proof.Claim

/-! ### Encoding -/

/-- R72: the eight command words, each written out from the table. -/
def Obligations.OpcodeWordsDecode : Prop :=
  decode 0x00000001#32 = .command .mulmod ∧ decode 0x00000002#32 = .command .powmod ∧
  decode 0x00000003#32 = .command .gcd ∧ decode 0x00000004#32 = .command .modinv ∧
  decode 0x00000005#32 = .command .mrwit ∧ decode 0x00000006#32 = .command .isprime ∧
  decode 0x00000007#32 = .command .encrypt ∧ decode 0x00000008#32 = .command .decrypt ∧
  decode 0x00000000#32 = .rejected .reservedOpcode ∧ decode 0x00000109#32 = .rejected .reservedBits

/-- Decoding inverts encoding, and no other word decodes to a command: over all 2^32 words. -/
def Obligations.DecodeInvertsEncode : Prop :=
  ∀ (w : BusWord) (i : Instr), decode w = .command i ↔ w = encode i

/-- R73: which words are illegal. -/
def Obligations.IllegalWordsAreRejected : Prop :=
  ∀ w : BusWord, (∃ why, decode w = .rejected why) ↔
    (w.toNat / 2 ^ 8 ≠ 0 ∨ w.toNat % 2 ^ 8 = 0 ∨ 9 ≤ w.toNat % 2 ^ 8)

/-- R59: byte lane j carries bits [8j+7:8j]; a word is put together from its lanes; a command is read from its lanes,
least significant first. -/
def Obligations.ByteLanesLittleEndian : Prop :=
  (∀ (w : BusWord) (j : Nat), j < 4 → (laneOfWord w j).toNat = w.toNat / 2 ^ (8 * j) % 2 ^ 8) ∧
  (∀ w : BusWord, wordOfLanes (laneOfWord w 0) (laneOfWord w 1) (laneOfWord w 2) (laneOfWord w 3) = w) ∧
  (∀ i : Instr, decodeBytes (encodeBytes i) = .command i)

/-! ### A step -/

/-- When the word in LCMD decodes to a command and its completion is due, a step is exec of that command. -/
def Obligations.StepRunsTheCommandInFlight : Prop :=
  ∀ (s : State) (i : Instr), completionDue s → decode s.lcmd = .command i → step s = exec i s

/-- A table word placed in flight by withFetchWord is run by the very next step. -/
def Obligations.FetchWordRunsNext : Prop :=
  ∀ (s : State) (i : Instr),
    step (s.withFetchWord 32 (encode i).toNat) = exec i (s.withFetchWord 32 (encode i).toNat)

/-- R40, R77: the completion step is Exec(LCMD, LA, LB, LM) on the raw word, atomically, and every value it returns is
a W-bit value. -/
def Obligations.CompletionIsExecOfTheLatches : Prop :=
  (∀ s : State, completionDue s →
    step s = .next (match execReference s.params s.lcmd (regValue s.la) (regValue s.lb) (regValue s.lm) with
      | .ok r p ni => completedOk s r p ni
      | .err c => completedErr s c)) ∧
  (∀ (s : State) (r : Nat) (p ni : Bool), Inv s →
    execReference s.params s.lcmd (regValue s.la) (regValue s.lb) (regValue s.lm) = .ok r p ni →
    r < 2 ^ s.params.W ∧ (regOfNat s.params.NW r).length = s.params.NW ∧ regValue (regOfNat s.params.NW r) = r)

/-- R201: any illegal word accepted into CMD completes with ILLEGAL, whatever the operands; CMD still holds the word and
RES is unchanged. -/
def Obligations.IllegalWordCompletes : Prop :=
  ∀ s : State, Inv s → completionDue s →
    (s.cmd.toNat / 2 ^ 8 ≠ 0 ∨ s.cmd.toNat % 2 ^ 8 = 0 ∨ 9 ≤ s.cmd.toNat % 2 ^ 8) →
    ErrCode.illegal.code = 0x1#4 ∧ step s = .next (completedErr s .illegal)

/-- R39 (weak fairness), R38, R37: unless reset intervenes, a command in flight completes, after as many steps of the
host side as its LATENCY says, with the outcome of the operands latched at its acceptance, whatever the host does
meanwhile. -/
def Obligations.CommandInFlightCompletes : Prop :=
  ∀ s : State, s.status.busy = true → s.inReset = false → quietFor s.delay s →
    ∃ t, runSteps (s.delay + 1) s = .next t ∧ t.status.busy = false ∧ t.status.done = true ∧ t.lcmd = s.lcmd ∧
      (∀ r p ni, execReference s.params s.lcmd (regValue s.la) (regValue s.lb) (regValue s.lm) = .ok r p ni →
        t.res = regOfNat s.params.NW r ∧ t.status.err = false ∧ t.status.errcode = .none ∧ t.status.prime = p ∧
          t.status.noinv = ni) ∧
      (∀ c, execReference s.params s.lcmd (regValue s.la) (regValue s.lb) (regValue s.lm) = .err c →
        t.res = s.res ∧ t.status.err = true ∧ t.status.errcode = c ∧ t.status.prime = false ∧ t.status.noinv = false)

/-- R242, R200, R52: a step stops exactly on a transaction while reset is applied, and it never refuses. That such a
transaction, a poll among them, stops the model (R242: "A model treats it as a fault of the host program") and that a
BusError does not (R200: RSACORE "stops nothing") are the model's choices, log entries 11 and 10. -/
def Obligations.StepStopsOnlyDuringReset : Prop :=
  ∀ s : State,
    ((∃ f, step s = .fault f) ↔ quietFor 0 s ∧ s.inReset = true ∧ s.host ≠ []) ∧ (∀ r, step s ≠ .refused r)

/-! ### Host transactions -/

/-- R36: acceptance of any word v, with response OK. -/
def Obligations.AcceptanceLatches : Prop :=
  ∀ (s : State) (v : BusWord), s.status.busy = false → s.inReset = false → quietFor 0 s → writesCmd s v →
    performs s (acceptedRegisters s v) .ok ∧ (acceptedRegisters s v).status.word = 0x00000001#32

/-- R37, R207: a CMD write while BUSY = 1 is dropped, with response OK; only OVR is set. -/
def Obligations.CommandWhileBusyIsDropped : Prop :=
  ∀ (s : State) (v : BusWord), s.status.busy = true → hostTurn s → s.inReset = false → writesCmd s v →
    performs s { s with status := { s.status with ovr := true } } .ok

/-- R38, R54, R55: a write to a word of OPA, OPB or OPM replaces that slice only, busy or not, and touches no latch. -/
def Obligations.OperandWordWrite : Prop :=
  ∀ (s : State) (off k : Nat) (v : BusWord) (rest : List HostMove),
    Inv s → hostTurn s → s.inReset = false → k < s.params.NW → s.host = .write off 4 v :: rest →
    (off = 0x040 + 4 * k → ∃ x : Reg, performs s { s with opa := x } .ok ∧
      x.length = s.params.NW ∧ ∀ j, regValue x / 2 ^ (32 * j) % 2 ^ 32 =
        if j = k then v.toNat else regValue s.opa / 2 ^ (32 * j) % 2 ^ 32) ∧
    (off = 0x080 + 4 * k → ∃ x : Reg, performs s { s with opb := x } .ok ∧
      x.length = s.params.NW ∧ ∀ j, regValue x / 2 ^ (32 * j) % 2 ^ 32 =
        if j = k then v.toNat else regValue s.opb / 2 ^ (32 * j) % 2 ^ 32) ∧
    (off = 0x0C0 + 4 * k → ∃ x : Reg, performs s { s with opm := x } .ok ∧
      x.length = s.params.NW ∧ ∀ j, regValue x / 2 ^ (32 * j) % 2 ^ 32 =
        if j = k then v.toNat else regValue s.opm / 2 ^ (32 * j) % 2 ^ 32)

/-- R25, R26, R27, R53, R54, R57, R58: what a legal read returns, at every offset of the window, and that it changes
nothing. -/
def Obligations.WindowReads : Prop :=
  ∀ (s : State) (off : Nat) (rest : List HostMove),
    s.params.wf = true → hostTurn s → s.inReset = false → legalAccess off 4 → s.host = .read off 4 :: rest →
    ∃ x : BusWord, performs s s (.data x) ∧
      (off = 0x000 → x.toNat = 0x5253 * 2 ^ 16 + s.params.W) ∧
      (off = 0x004 → x = s.cmd) ∧
      (off = 0x008 → x = s.status.word) ∧
      (∀ k < s.params.NW, off = 0x040 + 4 * k → x.toNat = regValue s.opa / 2 ^ (32 * k) % 2 ^ 32) ∧
      (∀ k < s.params.NW, off = 0x080 + 4 * k → x.toNat = regValue s.opb / 2 ^ (32 * k) % 2 ^ 32) ∧
      (∀ k < s.params.NW, off = 0x0C0 + 4 * k → x.toNat = regValue s.opm / 2 ^ (32 * k) % 2 ^ 32) ∧
      (∀ k < s.params.NW, off = 0x100 + 4 * k → x.toNat = regValue s.res / 2 ^ (32 * k) % 2 ^ 32) ∧
      (off ≠ 0x000 → off ≠ 0x004 → off ≠ 0x008 → ¬ isOperandWord s.params off → ¬ isResultWord s.params off → x = 0)

/-- R56: a legal write to ID, STATUS or a word of RES gets OK and changes nothing. -/
def Obligations.ReadOnlyWritesIgnored : Prop :=
  ∀ (s : State) (off : Nat) (v : BusWord) (rest : List HostMove),
    s.params.wf = true → hostTurn s → s.inReset = false → s.host = .write off 4 v :: rest →
    off = 0x000 ∨ off = 0x008 ∨ isResultWord s.params off → performs s s .ok

/-- R57: a reserved offset or an unused word slot reads 0; a legal write there gets OK and changes nothing. -/
def Obligations.ReservedOffsets : Prop :=
  ∀ (s : State) (off : Nat) (rest : List HostMove),
    s.params.wf = true → hostTurn s → s.inReset = false → legalAccess off 4 →
    off ≠ 0x000 → off ≠ 0x004 → off ≠ 0x008 → ¬ isOperandWord s.params off → ¬ isResultWord s.params off →
    (s.host = .read off 4 :: rest → performs s s (.data 0x00000000#32)) ∧
    (∀ v : BusWord, s.host = .write off 4 v :: rest → performs s s .ok)

/-- R52: any other size or offset gets BusError and changes no register, latch or STATUS field. -/
def Obligations.IllegalAccessIsBusError : Prop :=
  ∀ (s : State) (off n : Nat) (rest : List HostMove), hostTurn s → s.inReset = false → ¬ legalAccess off n →
    (s.host = .read off n :: rest → performs s s .busError) ∧
    (∀ v, s.host = .write off n v :: rest → performs s s .busError)

/-- R58: a read repeated gives the same answer; an operand write repeated leaves what it left; a CMD write repeated
while its command is in flight is dropped and sets OVR. -/
def Obligations.RepeatedTransactions : Prop :=
  ∀ (s : State) (off : Nat) (rest : List HostMove), s.status.busy = false → s.inReset = false → quietFor 1 s →
    (s.host = .read off 4 :: .read off 4 :: rest → ∃ x t, runSteps 2 s = .next t ∧ sameRegisters s t ∧
      t.responses = x :: x :: s.responses) ∧
    (∀ v : BusWord, off ≠ 0x004 → s.host = .write off 4 v :: .write off 4 v :: rest →
      ∃ t u, runSteps 1 s = .next t ∧ runSteps 2 s = .next u ∧ sameRegisters t u) ∧
    (∀ v : BusWord, 0 < s.latency.headD 0 → s.host = .write 0x004 4 v :: .write 0x004 4 v :: rest →
      ∃ t u, runSteps 1 s = .next t ∧ runSteps 2 s = .next u ∧ t.status.busy = true ∧ t.cmd = v ∧
        u.status = { t.status with ovr := true } ∧ sameRegisters { t with status := u.status } u)

/-- R27, R34: where each field stands in the STATUS word, the reserved bits, and the error codes. -/
def Obligations.StatusWordLayout : Prop :=
  ∀ st : Status,
    st.word.getLsbD 0 = st.busy ∧ st.word.getLsbD 1 = st.done ∧ st.word.getLsbD 2 = st.err ∧
    st.word.getLsbD 3 = st.prime ∧ st.word.getLsbD 4 = st.noinv ∧ st.word.getLsbD 5 = st.ovr ∧
    st.word.extractLsb' 6 2 = 0#2 ∧ st.word.extractLsb' 12 20 = 0#20 ∧
    st.word.extractLsb' 8 4 = (match st.errcode with
      | .none => 0x0#4
      | .illegal => 0x1#4
      | .modzero => 0x2#4
      | .badarg => 0x3#4)

/-- R38, R61, R248: a host write other than to CMD and the completion step of the command in flight can be exchanged:
either order gives the same state. -/
def Obligations.OperandWriteCommutesWithCompletion : Prop :=
  ∀ (s : State) (off n : Nat) (v : BitVec (8 * n)) (rest : List HostMove),
    s.status.busy = true → s.inReset = false → quietFor 1 s → s.delay = 1 → s.host = .write off n v :: rest →
    off ≠ 0x004 →
    ∃ t, runSteps 2 s = .next t ∧ runSteps 2 { s with delay := 0 } = .next t

/-! ### Reset -/

/-- R45: the reset state's registers, for this hardware's default W = 64. -/
def Obligations.ResetState : Prop :=
  State.reset.readWord 0x000 = 0x52530040#32 ∧ State.reset.cmd = 0 ∧ State.reset.status.word = 0 ∧
  State.reset.opa = [0#32, 0#32] ∧ State.reset.opb = [0#32, 0#32] ∧ State.reset.opm = [0#32, 0#32] ∧
  State.reset.res = [0#32, 0#32] ∧ State.reset.lcmd = 0 ∧ State.reset.la = [0#32, 0#32] ∧
  State.reset.lb = [0#32, 0#32] ∧ State.reset.lm = [0#32, 0#32] ∧ regValue [0#32, 0#32] = 0

/-- R45, R240, R241, R205: when reset is applied every register and latch takes its reset value, whether or not a
command was in flight or due to complete, and ID keeps its value. That the host's pending moves and its responses stay as
they are is no rule of the spec: it is the model's choice, log entries 14 and 16. -/
def Obligations.ApplyingReset : Prop :=
  ∀ s : State, appliesReset s →
    ∃ (t : State) (zero : Reg), step s = .next t ∧ t.host = s.host ∧ t.responses = s.responses ∧ t.inReset = true ∧
      t.readWord 0x000 = s.readWord 0x000 ∧ zero.length = s.params.NW ∧ regValue zero = 0 ∧ t.status.word = 0x00000000#32 ∧
      sameRegisters
        { s with
          cmd := 0, status := {}, opa := zero, opb := zero, opm := zero, res := zero, lcmd := 0, la := zero, lb := zero,
          lm := zero, resetPin := s.params.resetActive } t

/-- R251: a reset during a polling loop aborts the command and leaves BUSY = 0 with DONE = 0 and every operand and RES 0,
for a reset that is applied after k polls and released at once (first clause). The loop `wait` on BUSY then ends with its
next poll; a loop on DONE spins forever. That the loop is one move which stays pending through the reset, and that the
reset adds no response, is the model's choice, log entries 7, 14 and 16. -/
def Obligations.ResetDuringWait : Prop :=
  (∀ (s : State) (k : Nat) (loop : HostMove) (rest : List HostMove),
    Inv s → s.status.busy = true → s.inReset = false → loop = .wait ∨ loop = .waitDone → s.host = loop :: rest →
    k ≤ s.delay →
    s.pinChanges = [{ after := k, level := s.params.resetActive }, { after := 0, level := !s.params.resetActive }] →
    ∃ t, runSteps (k + 2) s = .next t ∧ t.host = loop :: rest ∧ t.inReset = false ∧ t.pinChanges = [] ∧
      t.status.busy = false ∧ t.status.done = false ∧ t.cmd = 0 ∧ regValue t.opa = 0 ∧ regValue t.opb = 0 ∧
      regValue t.opm = 0 ∧ regValue t.res = 0 ∧
      t.responses = List.replicate k (.data s.status.word) ++ s.responses) ∧
  (∀ (s : State) (rest : List HostMove),
    hostTurn s → s.inReset = false → s.status.busy = false → s.host = .wait :: rest →
    performs s s (.data s.status.word)) ∧
  (∀ (s : State) (rest : List HostMove) (n : Nat),
    s.pinChanges = [] → s.inReset = false → s.status.busy = false → s.status.done = false → s.host = .waitDone :: rest →
    ∃ t, runSteps n s = .next t ∧ t.host = .waitDone :: rest ∧ sameRegisters s t)

/-- R244: what a command issued right after reset reports, its operands being 0. -/
def Obligations.FirstCommandAfterReset : Prop :=
  step (State.reset.withFetchWord 32 0x01) = .next (completedErr (State.reset.withFetchWord 32 0x01) .modzero) ∧
  step (State.reset.withFetchWord 32 0x02) = .next (completedErr (State.reset.withFetchWord 32 0x02) .modzero) ∧
  step (State.reset.withFetchWord 32 0x07) = .next (completedErr (State.reset.withFetchWord 32 0x07) .modzero) ∧
  step (State.reset.withFetchWord 32 0x08) = .next (completedErr (State.reset.withFetchWord 32 0x08) .modzero) ∧
  step (State.reset.withFetchWord 32 0x04) = .next (completedOk (State.reset.withFetchWord 32 0x04) 0 false true)

/-! ### Rules of the whole machine -/

/-- The invariant holds after reset. -/
def Obligations.ResetMeetsInv : Prop := Inv State.reset ∧ ReportIsOfLatchedCommand State.reset

/-- Every step keeps the invariant, from every state that meets it. -/
def Obligations.StepKeepsInv : Prop := ∀ s t : State, Inv s → step s = .next t → Inv t

/-- R209: every step keeps the report that STATUS and RES give of the latched command. -/
def Obligations.StepKeepsReport : Prop :=
  ∀ s t : State, Inv s → ReportIsOfLatchedCommand s → step s = .next t → ReportIsOfLatchedCommand t

/-- R28: BUSY is set by the acceptance of a CMD write and by nothing else, and cleared by the completion or reset and
by nothing else. -/
def Obligations.BusyRisesAndFalls : Prop :=
  ∀ s t : State, step s = .next t →
    (s.status.busy = false → (t.status.busy = true ↔ hostTurn s ∧ ∃ v, writesCmd s v)) ∧
    (s.status.busy = true → (t.status.busy = false ↔ completionDue s ∨ appliesReset s))

/-- R24: only a successful completion writes RES; and reset clears it. -/
def Obligations.ResChangesOnlyBySuccess : Prop :=
  ∀ s t : State, step s = .next t → t.res ≠ s.res →
    (completionDue s ∧ t.status.done = true ∧ t.status.err = false) ∨ (appliesReset s ∧ regValue t.res = 0)

/-- R33: OVR is set by a CMD write dropped because BUSY = 1 and by nothing else, and cleared by an acceptance or reset
and by nothing else; a completion leaves it. -/
def Obligations.OvrSetAndCleared : Prop :=
  ∀ s t : State, step s = .next t →
    (s.status.ovr = false → (t.status.ovr = true ↔ hostTurn s ∧ s.status.busy = true ∧ ∃ v, writesCmd s v)) ∧
    (s.status.ovr = true →
      (t.status.ovr = false ↔ (hostTurn s ∧ s.status.busy = false ∧ ∃ v, writesCmd s v) ∨ appliesReset s)) ∧
    (completionDue s → t.status.ovr = s.status.ovr)

/-- R26, R35, R38: CMD and the latches change only at an acceptance, and then to the operands of that instant; or by
reset. -/
def Obligations.LatchesChangeOnlyAtAcceptance : Prop :=
  ∀ s t : State, step s = .next t →
    (t.cmd = s.cmd ∧ t.lcmd = s.lcmd ∧ t.la = s.la ∧ t.lb = s.lb ∧ t.lm = s.lm) ∨
    (s.status.busy = false ∧ t.status.busy = true ∧ (∃ v, writesCmd s v ∧ t.cmd = v ∧ t.lcmd = v) ∧
      t.la = s.opa ∧ t.lb = s.opb ∧ t.lm = s.opm) ∨
    appliesReset s

/-- R21, R22, R23: the engine never writes OPA, OPB or OPM; only a host write to one of their words and reset do. -/
def Obligations.OperandsChangeOnlyByHost : Prop :=
  ∀ s t : State, step s = .next t → (t.opa ≠ s.opa ∨ t.opb ≠ s.opb ∨ t.opm ≠ s.opm) →
    ¬ completionDue s ∧
    ((∃ off v rest, s.host = .write off 4 v :: rest ∧ isOperandWord s.params off) ∨ appliesReset s)

/-- R61, R210: a report stands until the next acceptance or reset: while DONE stays 1, STATUS, RES and CMD stay. -/
def Obligations.ReportStandsWhileDone : Prop :=
  ∀ s t : State, Inv s → s.status.done = true → step s = .next t → t.status.done = true →
    t.status = s.status ∧ t.res = s.res ∧ t.cmd = s.cmd

/-- R216: an idle machine with no pending move keeps every register. -/
def Obligations.IdleKeepsRegisters : Prop :=
  ∀ s : State, s.status.busy = false → quietFor 0 s → s.host = [] → ∃ t, step s = .next t ∧ sameRegisters s t ∧ t.host = []

/-- R8: no step changes the parameters. -/
def Obligations.StepKeepsParameters : Prop := ∀ s t : State, step s = .next t → t.params = s.params

/-! ### Commands -/

/-- R101: MULMOD. -/
def Obligations.MulmodResult : Prop :=
  decode 0x00000001#32 = .command .mulmod ∧
  ∀ s : State, exec .mulmod s = .next (if regValue s.lm = 0 then completedErr s .modzero
    else completedOk s (regValue s.la * regValue s.lb % regValue s.lm) false false)

/-- R103, R104: POWMOD is the power itself, reduced. -/
def Obligations.PowmodResult : Prop :=
  decode 0x00000002#32 = .command .powmod ∧
  ∀ s : State, exec .powmod s = .next (if regValue s.lm = 0 then completedErr s .modzero
    else completedOk s (regValue s.la ^ regValue s.lb % regValue s.lm) false false)

/-- R106: the source's laws of powMod and mulMod. -/
def Obligations.PowmodMulmodLaws : Prop :=
  ∀ s : State,
    (1 < regValue s.lm → regValue s.lb = 0 → exec .powmod s = .next (completedOk s 1 false false)) ∧
    (regValue s.lm ≠ 0 → regValue s.lb = 1 → exec .powmod s = .next (completedOk s (regValue s.la % regValue s.lm) false false)) ∧
    (regValue s.lm ≠ 0 →
      exec .mulmod s = .next (completedOk s (regValue s.la * regValue s.lb % regValue s.lm) false false))

/-- R120, R121: GCD is the greatest common divisor; LM has no effect. -/
def Obligations.GcdResult : Prop :=
  decode 0x00000003#32 = .command .gcd ∧
  ∀ s : State, exec .gcd s = .next (completedOk s (Nat.gcd (regValue s.la) (regValue s.lb)) false false)

/-- R122: the source's laws of gcd. -/
def Obligations.GcdLaws : Prop :=
  (∀ s : State, regValue s.lb = 0 → exec .gcd s = .next (completedOk s (regValue s.la) false false)) ∧
  (∀ s : State, regValue s.la = 0 → regValue s.lb = 0 → exec .gcd s = .next (completedOk s 0 false false)) ∧
  (∀ s u : State, 0 < regValue s.lb → u.params = s.params → regValue u.la = regValue s.lb →
    regValue u.lb = regValue s.la % regValue s.lb →
    ∃ t v, exec .gcd s = .next t ∧ exec .gcd u = .next v ∧ v.res = t.res)

/-- R123, R125, R126: MODINV answers the one inverse in [0, m), or reports that there is none. -/
def Obligations.ModinvResult : Prop :=
  decode 0x00000004#32 = .command .modinv ∧
  ∀ s : State,
    (regValue s.lm ≤ 1 ∨ Nat.gcd (regValue s.la) (regValue s.lm) ≠ 1 →
      exec .modinv s = .next (completedOk s 0 false true)) ∧
    (1 < regValue s.lm → Nat.gcd (regValue s.la) (regValue s.lm) = 1 →
      ∃ x, x < regValue s.lm ∧ regValue s.la * x % regValue s.lm = 1 ∧
        (∀ y, y < regValue s.lm → regValue s.la * y % regValue s.lm = 1 → y = x) ∧
        exec .modinv s = .next (completedOk s x false false))

/-- R140, R141, R142: MRWIT, in terms of powers of the witness. -/
def Obligations.MrwitResult : Prop :=
  decode 0x00000005#32 = .command .mrwit ∧
  ∀ s : State,
    (regValue s.lm < 3 ∨ regValue s.lm % 2 = 0 → exec .mrwit s = .next (completedErr s .badarg)) ∧
    (3 ≤ regValue s.lm → regValue s.lm % 2 = 1 →
      (regValue s.lm ≤ regValue s.la → exec .mrwit s = .next (completedOk s 2 true false)) ∧
      (regValue s.la < regValue s.lm → RoundRejects (regValue s.la) (regValue s.lm) →
        exec .mrwit s = .next (completedOk s 0 false false)) ∧
      (regValue s.la < regValue s.lm → ¬ RoundRejects (regValue s.la) (regValue s.lm) →
        exec .mrwit s = .next (completedOk s 1 true false)))

/-- R143, R144: ISPRIME, in terms of failing witnesses. -/
def Obligations.IsprimeResult : Prop :=
  decode 0x00000006#32 = .command .isprime ∧
  ∀ s : State, ∃ verdict : Bool,
    (verdict = true ↔ regValue s.lm = 2 ∨ regValue s.lm = 3 ∨
      (3 < regValue s.lm ∧ regValue s.lm % 2 = 1 ∧ ∀ a ∈ s.params.witnesses, ¬ RoundRejects a (regValue s.lm))) ∧
    exec .isprime s = .next (completedOk s (if verdict then 1 else 0) verdict false)

/-- R160: ENCRYPT. -/
def Obligations.EncryptResult : Prop :=
  decode 0x00000007#32 = .command .encrypt ∧
  ∀ s : State, exec .encrypt s = .next (if regValue s.lm = 0 then completedErr s .modzero
    else if 255 < regValue s.la then completedErr s .badarg
    else completedOk s (regValue s.la ^ regValue s.lb % regValue s.lm) false false)

/-- R161: DECRYPT. -/
def Obligations.DecryptResult : Prop :=
  decode 0x00000008#32 = .command .decrypt ∧
  ∀ s : State, exec .decrypt s = .next (if regValue s.lm = 0 then completedErr s .modzero
    else completedOk s (regValue s.la ^ regValue s.lb % regValue s.lm % 256) false false)

/-- R40, R42, R44: every command completes in every state; of the state it writes RES and the flags but OVR, and every
byte of the window outside STATUS and RES reads as before. -/
def Obligations.EveryCommandCompletesWithFrame : Prop :=
  ∀ (i : Instr) (s : State), s.params.wf = true → ∃ t, exec i s = .next t ∧
    t = { s with res := t.res, status := t.status } ∧ t.status.ovr = s.status.ovr ∧
    t.status.busy = false ∧ t.status.done = true ∧ (t.status.err = true → t.res = s.res) ∧
    ∀ off, ¬(0x008 ≤ off ∧ off < 0x00C) → ¬(0x100 ≤ off ∧ off < 0x100 + 4 * s.params.NW) →
      t.windowByte off = s.windowByte off

/-- R75: an ignored operand has no effect on the outcome, whatever its value. -/
def Obligations.IgnoredOperands : Prop :=
  ∀ (s t : State) (x y : Reg),
    (exec .gcd s = .next t → exec .gcd { s with lm := x } = .next { t with lm := x }) ∧
    (exec .modinv s = .next t → exec .modinv { s with lb := x } = .next { t with lb := x }) ∧
    (exec .mrwit s = .next t → exec .mrwit { s with lb := x } = .next { t with lb := x }) ∧
    (exec .isprime s = .next t → exec .isprime { s with la := x, lb := y } = .next { t with la := x, lb := y })

/-- R35, R46, R164: the outcome of a command is a function of the latches and the parameters: two states that agree on
them complete with the same flags, and with the same RES unless it is an error. -/
def Obligations.OutcomeDependsOnLatchesOnly : Prop :=
  ∀ (i : Instr) (s s' : State),
    s'.params = s.params → s'.la = s.la → s'.lb = s.lb → s'.lm = s.lm →
    ∃ t t', exec i s = .next t ∧ exec i s' = .next t' ∧
      t'.status = { t.status with ovr := s'.status.ovr } ∧ (t.status.err = false → t'.res = t.res)

/-- R202, R203: which command reports which error, and when; RES is unchanged. -/
def Obligations.OperandErrors : Prop :=
  ∀ (i : Instr) (s : State), ∃ t, exec i s = .next t ∧ t.status.errcode ≠ .illegal ∧
    (t.status.errcode = .modzero ↔
      regValue s.lm = 0 ∧ (i = .mulmod ∨ i = .powmod ∨ i = .encrypt ∨ i = .decrypt)) ∧
    (t.status.errcode = .badarg ↔
      (i = .mrwit ∧ (regValue s.lm < 3 ∨ regValue s.lm % 2 = 0)) ∨
        (i = .encrypt ∧ regValue s.lm ≠ 0 ∧ 255 < regValue s.la)) ∧
    (t.status.err = true ↔ t.status.errcode ≠ .none) ∧ (t.status.err = true → t.res = s.res) ∧
    ErrCode.modzero.code = 0x2#4 ∧ ErrCode.badarg.code = 0x3#4

/-- R204: ILLEGAL over MODZERO over BADARG. -/
def Obligations.ErrorPriority : Prop :=
  (∀ s : State, completionDue s → (∀ i, decode s.lcmd ≠ .command i) → step s = .next (completedErr s .illegal)) ∧
  (∀ s : State, regValue s.lm = 0 → 255 < regValue s.la → exec .encrypt s = .next (completedErr s .modzero))

/-- R31, R32: PRIME is the verdict of MRWIT and ISPRIME alone, NOINV of MODINV alone. -/
def Obligations.VerdictFlags : Prop :=
  ∀ (i : Instr) (s : State), s.params.wf = true → ∃ t, exec i s = .next t ∧
    (t.status.noinv = true ↔ i = .modinv ∧ (Nat.gcd (regValue s.la) (regValue s.lm) ≠ 1 ∨ regValue s.lm ≤ 1)) ∧
    (t.status.prime = true ↔
      (i = .mrwit ∧ t.status.err = false ∧ regValue t.res ≠ 0) ∨ (i = .isprime ∧ regValue t.res = 1))

/-- R143: the order of the witnesses does not change the result. -/
def Obligations.WitnessOrderIrrelevant : Prop :=
  ∀ (s : State) (ws : List Nat), ws.Perm s.params.witnesses →
    ∃ t, exec .isprime s = .next t ∧
      exec .isprime { s with params := { s.params with witnesses := ws } } =
        .next { t with params := { s.params with witnesses := ws } }

/-- R146: a round ended early once x = 1 has the same outcome. -/
def Obligations.EarlyRoundEndSameOutcome : Prop :=
  ∀ k x n : Nat, 3 ≤ n → squareLoopEarly k x n = squareLoop k x n

/-- R140, R17: a failing witness proves compositeness: MRWIT with a witness other than 0 never rejects a prime. -/
def Obligations.MrwitNeverRejectsPrime : Prop :=
  ∀ s : State, s.params.wf = true → Nat.Prime (regValue s.lm) → regValue s.lm ≠ 2 → regValue s.la ≠ 0 →
    ∃ t, exec .mrwit s = .next t ∧ t.status.err = false ∧ t.status.prime = true ∧ regValue t.res ≠ 0

/-- R143, R145: ISPRIME accepts every prime, as long as 0 is no witness; so a verdict 0 proves that n is not prime. -/
def Obligations.IsprimeAcceptsEveryPrime : Prop :=
  ∀ s : State, 0 ∉ s.params.witnesses → Nat.Prime (regValue s.lm) →
    exec .isprime s = .next (completedOk s 1 true false)

/-- R145: ISPRIME is no primality oracle: it accepts 4759123141 = 48781 * 97561. -/
def Obligations.IsprimeIsNoOracle : Prop :=
  ∀ s : State, s.params.witnesses = [2, 7, 61] → regValue s.lm = 4759123141 →
    exec .isprime s = .next (completedOk s 1 true false) ∧ 48781 * 97561 = regValue s.lm

/-- R147: the source's reference table. -/
def Obligations.IsprimeReferenceTable : Prop :=
  ∀ s : State, s.params.witnesses = [2, 7, 61] →
    (regValue s.lm ∈ [2, 3, 97, 7919, 104729] → exec .isprime s = .next (completedOk s 1 true false)) ∧
    (regValue s.lm ∈ [1, 4, 100, 9973 * 2] → exec .isprime s = .next (completedOk s 0 false false))

/-- R162: decryption undoes encryption, for every key pair with the invariants of the source and n > 255. -/
def Obligations.RsaRoundTrip : Prop :=
  ∀ (p q e d b : Nat) (s u : State), Inv s → Nat.Prime p → Nat.Prime q → p ≠ q → 255 < p * q →
    e * d % ((p - 1) * (q - 1)) = 1 → b ≤ 255 →
    regValue s.la = b → regValue s.lb = e → regValue s.lm = p * q →
    ∃ t, exec .encrypt s = .next t ∧ t.status.err = false ∧
      (u.la = t.res → regValue u.lb = d → regValue u.lm = p * q →
        exec .decrypt u = .next (completedOk u b false false))

/-! ### Host scripts -/

/-- R81: `ldop R, V` leaves V in R and touches no other register, unless reset intervenes. -/
def Obligations.LdopLoadsOperand : Prop :=
  ∀ (s : State) (v : Nat) (rest : List HostMove), Inv s → s.status.busy = false → s.inReset = false →
    quietFor s.params.NW s → v < 2 ^ s.params.W →
    (s.host = ldop s.params .opa v ++ rest → ∃ t, runSteps s.params.NW s = .next t ∧ t.host = rest ∧
      regValue t.opa = v ∧ sameRegisters { s with opa := t.opa } t) ∧
    (s.host = ldop s.params .opb v ++ rest → ∃ t, runSteps s.params.NW s = .next t ∧ t.host = rest ∧
      regValue t.opb = v ∧ sameRegisters { s with opb := t.opb } t) ∧
    (s.host = ldop s.params .opm v ++ rest → ∃ t, runSteps s.params.NW s = .next t ∧ t.host = rest ∧
      regValue t.opm = v ∧ sameRegisters { s with opm := t.opm } t)

/-- R81, R245, R255: `run MN A, B, M` from an idle machine comes to its end, whatever the LATENCY, when no reset
intervenes, with the outcome of Exec on A, B, M in RES and STATUS, and the host has read that STATUS word and that RES
value. -/
def Obligations.RunScriptEndToEnd : Prop :=
  ∀ (s : State) (i : Instr) (a b m : Nat), Inv s → s.status.busy = false → s.inReset = false →
    s.pinChanges = [] → a < 2 ^ s.params.W → b < 2 ^ s.params.W → m < 2 ^ s.params.W →
    s.host = runScript s.params i a b m →
    ∃ (k : Nat) (t : State) (words : List BusWord) (earlier : List Response),
      runSteps k s = .next t ∧ t.runOver ∧ t.cmd = encode i ∧
      regValue t.opa = a ∧ regValue t.opb = b ∧ regValue t.opm = m ∧
      (∀ r p ni, execReference s.params (encode i) a b m = .ok r p ni →
        regValue t.res = r ∧ t.status = { done := true, prime := p, noinv := ni }) ∧
      (∀ c, execReference s.params (encode i) a b m = .err c →
        t.res = s.res ∧ t.status = { done := true, err := true, errcode := c }) ∧
      t.responses = (words.map Response.data).reverse ++ .data t.status.word :: earlier ∧
      words.length = s.params.NW ∧ regValue words = regValue t.res
end

