-- ==== Sys2Proof/Laws/Arith.lean ====
section
/-! SUPPORT. What the loops of the arithmetic commands compute (spec/40_modmul_powmod.md R100 to R105,
41_gcd_modinv.md R120 to R125, 42_primality.md R140 to R143): one spec lemma per function. -/

namespace Sys2Proof.Machine

/-! ### Modular product and power -/

theorem mulMod_lt {a b m : Nat} (hm : 0 < m) : mulMod a b m < m := Nat.mod_lt _ hm

/-- The loop invariant of square-and-multiply: r * x^e mod m is kept until e is used up. -/
theorem powLoop_eq {m : Nat} : ∀ (rounds r x e : Nat), e < 2 ^ rounds → r < m → powLoop rounds r x e m = r * x ^ e % m
  | 0, r, x, e, he, hr => by
    obtain rfl : e = 0 := by simpa using he
    simp [powLoop, Nat.mod_eq_of_lt hr]
  | rounds + 1, r, x, e, he, hr => by
    unfold powLoop
    split
    next h => simp [h, Nat.mod_eq_of_lt hr]
    next h =>
      have hm : 0 < m := by omega
      have half : e / 2 < 2 ^ rounds := by rw [pow_succ] at he; omega
      have base : ∀ y, y * mulMod x x m ^ (e / 2) % m = y * x ^ (2 * (e / 2)) % m := by
        intro y
        rw [mulMod, pow_mul, pow_two, Nat.mul_mod, ← Nat.pow_mod, ← Nat.mul_mod]
      split
      next odd =>
        rw [powLoop_eq rounds _ _ _ half (mulMod_lt hm), base, mulMod, Nat.mod_mul_mod, mul_assoc, ← pow_succ']
        congr 3; omega
      next even =>
        rw [powLoop_eq rounds _ _ _ half hr, base]
        congr 3; omega

/-- R103: `powmod(x, e, m) = (x^e) mod m`. -/
theorem powMod_eq (x e : Nat) {m : Nat} (hm : 0 < m) : powMod x e m = x ^ e % m := by
  rw [powMod, powLoop_eq _ _ _ _ Nat.lt_log2_self (Nat.mod_lt _ hm), Nat.mod_mul_mod, one_mul, ← Nat.pow_mod]

theorem powMod_lt (x e : Nat) {m : Nat} (hm : 0 < m) : powMod x e m < m := by
  rw [powMod_eq x e hm]; exact Nat.mod_lt _ hm

/-! ### Euclid -/

theorem gcdLoop_eq : ∀ (rounds a b : Nat), b < rounds → gcdLoop rounds a b = Nat.gcd a b
  | 0, _, _, h => by omega
  | rounds + 1, a, b, h => by
    unfold gcdLoop
    split
    next hb => simp [hb]
    next hb =>
      have lt : a % b < b := Nat.mod_lt _ (by omega)
      rw [gcdLoop_eq rounds b (a % b) (by omega), Nat.gcd_comm a b, Nat.gcd_rec b a, Nat.gcd_comm]

/-- R120: Euclid's loop computes the greatest common divisor. -/
theorem euclidGcd_eq (a b : Nat) : euclidGcd a b = Nat.gcd a b := gcdLoop_eq _ _ _ (Nat.lt_succ_self b)

/-- R124: the loop ends with the gcd, and the coefficient keeps `a * s ≡ r (mod m)`. -/
theorem extGcdLoop_spec (a m : Int) : ∀ (rounds r0 r1 : Nat) (s0 s1 : Int), r1 < rounds →
    a * s0 ≡ r0 [ZMOD m] → a * s1 ≡ r1 [ZMOD m] →
    (extGcdLoop rounds r0 r1 s0 s1).1 = Nat.gcd r0 r1 ∧
      a * (extGcdLoop rounds r0 r1 s0 s1).2 ≡ Nat.gcd r0 r1 [ZMOD m]
  | 0, _, _, _, _, h, _, _ => by omega
  | rounds + 1, r0, r1, s0, s1, h, h0, h1 => by
    unfold extGcdLoop
    split
    next hr => simpa [hr] using h0
    next hr =>
      have lt : r0 % r1 < r1 := Nat.mod_lt _ (by omega)
      have next : a * (s0 - ((r0 / r1 : Nat) : Int) * s1) ≡ ((r0 % r1 : Nat) : Int) [ZMOD m] := by
        have e : ((r0 % r1 : Nat) : Int) = (r0 : Int) - ((r0 / r1 : Nat) : Int) * (r1 : Int) := by
          have := Nat.div_add_mod r0 r1
          have : (r1 : Int) * ((r0 / r1 : Nat) : Int) + ((r0 % r1 : Nat) : Int) = (r0 : Int) := by exact_mod_cast this
          linarith
        have : a * (s0 - ((r0 / r1 : Nat) : Int) * s1) = a * s0 - ((r0 / r1 : Nat) : Int) * (a * s1) := by ring
        rw [this, e]
        exact h0.sub (h1.mul_left _)
      have ih := extGcdLoop_spec a m rounds r1 (r0 % r1) _ _ (by omega) h1 next
      rw [Nat.gcd_comm r0 r1, Nat.gcd_rec r1 r0, Nat.gcd_comm (r0 % r1) r1]
      exact ih

/-- R125: an inverse in [0, m) is unique. -/
theorem inverse_unique {a m x y : Nat} (hx : x < m) (hy : y < m) (ex : a * x % m = 1) (ey : a * y % m = 1) : x = y := by
  have cop : Nat.Coprime m a := by
    rw [Nat.coprime_comm]
    refine Nat.Coprime.coprime_mul_right (k := x) ?_
    rw [Nat.coprime_comm, Nat.Coprime, Nat.gcd_rec, ex, Nat.gcd_one_left]
  have : a * x ≡ a * y [MOD m] := by rw [Nat.ModEq, ex, ey]
  exact Nat.ModEq.eq_of_lt_of_lt (Nat.ModEq.cancel_left_of_coprime cop this) hx hy

/-- R123: there is no inverse when m <= 1 or gcd(a, m) ≠ 1. -/
theorem modInverse_none {a m : Nat} (h : m ≤ 1 ∨ Nat.gcd a m ≠ 1) : modInverse a m = none := by
  unfold modInverse
  split
  · rfl
  next hm =>
    have g := (extGcdLoop_spec a m (m + 1) a m 1 0 (Nat.lt_succ_self m) (by simp) (by simp [Int.ModEq])).1
    have ne : (extGcdLoop (m + 1) a m 1 0).1 ≠ 1 := by rw [g]; exact h.resolve_left hm
    simp [ne]

/-- R123: otherwise `modInverse` answers an inverse in [0, m). -/
theorem modInverse_some {a m : Nat} (hm : 1 < m) (hg : Nat.gcd a m = 1) :
    ∃ x, modInverse a m = some x ∧ x < m ∧ a * x % m = 1 := by
  obtain ⟨g, c⟩ := extGcdLoop_spec a m (m + 1) a m 1 0 (Nat.lt_succ_self m) (by simp) (by simp [Int.ModEq])
  have pos : (0 : Int) < m := by omega
  have nonneg := Int.emod_nonneg (extGcdLoop (m + 1) a m 1 0).2 (ne_of_gt pos)
  have lt := Int.emod_lt_of_pos (extGcdLoop (m + 1) a m 1 0).2 pos
  refine ⟨((extGcdLoop (m + 1) a m 1 0).2 % (m : Int)).toNat, by simp [modInverse, not_le.2 hm, g, hg], by omega, ?_⟩
  rw [hg] at c
  have e : ((a * ((extGcdLoop (m + 1) a m 1 0).2 % (m : Int)).toNat : Nat) : Int) ≡ ((1 : Nat) : Int) [ZMOD m] := by
    push_cast
    rw [Int.toNat_of_nonneg nonneg]
    exact ((Int.mod_modEq _ _).mul_left _).trans (by simpa using c)
  have := (Int.natCast_modEq_iff).1 e
  rw [Nat.ModEq, Nat.mod_eq_of_lt hm] at this
  exact this

theorem modInverse_lt {a m x : Nat} (h : modInverse a m = some x) : x < m := by
  by_cases hm : 1 < m
  · by_cases hg : Nat.gcd a m = 1
    · obtain ⟨y, hy, lt, _⟩ := modInverse_some hm hg
      rw [hy] at h; cases h; exact lt
    · rw [modInverse_none (.inr hg)] at h; cases h
  · rw [modInverse_none (.inl (by omega))] at h; cases h

/-! ### Miller-Rabin -/

theorem decomposeLoop_spec : ∀ (rounds d s : Nat), 0 < d → d < 2 ^ rounds →
    (decomposeLoop rounds d s).1 % 2 = 1 ∧ (decomposeLoop rounds d s).1 * 2 ^ (decomposeLoop rounds d s).2 = d * 2 ^ s
  | 0, d, s, h0, h => by simp at h; omega
  | rounds + 1, d, s, h0, h => by
    unfold decomposeLoop
    split
    next even =>
      have ih := decomposeLoop_spec rounds (d / 2) (s + 1) (by omega) (by rw [pow_succ] at h; omega)
      refine ⟨ih.1, ih.2.trans ?_⟩
      rw [pow_succ, ← mul_assoc, mul_right_comm]
      congr 1; omega
    next odd => exact ⟨by omega, rfl⟩

/-- R141: `v = d * 2^s` with d odd. -/
theorem decompose_spec {v : Nat} (hv : 0 < v) :
    (decompose v).1 % 2 = 1 ∧ (decompose v).1 * 2 ^ (decompose v).2 = v := by
  have := decomposeLoop_spec (v.log2 + 1) v 0 hv Nat.lt_log2_self
  rwa [pow_zero, mul_one] at this

/-- R141: the pair is unique. -/
theorem odd_mul_two_pow_unique : ∀ {k l d c : Nat}, d % 2 = 1 → c % 2 = 1 → d * 2 ^ k = c * 2 ^ l → d = c ∧ k = l
  | 0, 0, d, c, _, _, h => by simpa using h
  | 0, l + 1, d, c, hd, _, h => by rw [pow_succ, ← mul_assoc] at h; omega
  | k + 1, 0, d, c, _, hc, h => by rw [pow_succ, ← mul_assoc] at h; omega
  | k + 1, l + 1, d, c, hd, hc, h => by
    have := odd_mul_two_pow_unique (k := k) (l := l) hd hc (by
      rw [pow_succ, pow_succ, ← mul_assoc, ← mul_assoc] at h; exact Nat.eq_of_mul_eq_mul_right two_pos h)
    omega

/-- R140: the squaring loop passes exactly when one of the k squarings reaches n - 1. -/
theorem squareLoop_eq_pass {n : Nat} : ∀ (k x : Nat),
    squareLoop k x n = .pass ↔ ∃ r, r < k ∧ x ^ 2 ^ (r + 1) % n = n - 1
  | 0, x => by simp [squareLoop]
  | k + 1, x => by
    have sq : ∀ r, mulMod x x n ^ 2 ^ r % n = x ^ 2 ^ (r + 1) % n := by
      intro r
      rw [mulMod, ← Nat.pow_mod, ← pow_two, ← pow_mul, ← pow_succ']
    unfold squareLoop
    split
    next h =>
      exact ⟨fun _ => ⟨0, by omega, by rwa [zero_add, pow_one, pow_two]⟩, fun _ => rfl⟩
    next h =>
      rw [squareLoop_eq_pass k]
      constructor
      · rintro ⟨r, hr, e⟩
        exact ⟨r + 1, by omega, by rw [← sq (r + 1)]; exact e⟩
      · rintro ⟨r, hr, e⟩
        cases r with
        | zero =>
          rw [zero_add, pow_one, pow_two] at e
          exact absurd e h
        | succ r => exact ⟨r, by omega, by rw [sq (r + 1)]; exact e⟩

end Sys2Proof.Machine
end

