-- ==== Sys2Proof/Laws/Decode.lean ====
section
/-! SUPPORT. What the decoder answers, once for all words (spec/30_encoding.md R72, R73). -/

namespace Sys2Proof

theorem decode_encode (i : Instr) : decode (encode i) = .command i := by cases i <;> decide

theorem opcodeTable_rows : ∀ row ∈ opcodeTable, row.mask = BitVec.allOnes 32 ∧ row.pattern = encode row.instr := by
  decide

/-- A word is the command word of one command, or it is rejected. -/
theorem decode_spec (w : BusWord) :
    (∃ i, w = encode i ∧ decode w = .command i) ∨ ((∀ i, w ≠ encode i) ∧ ∃ why, decode w = .rejected why) := by
  by_cases h : ∃ i, w = encode i
  · obtain ⟨i, rfl⟩ := h
    exact .inl ⟨i, rfl, decode_encode i⟩
  · push Not at h
    refine .inr ⟨h, ?_⟩
    have none : (opcodeTable.find? fun row => w &&& row.mask == row.pattern) = none := by
      rw [List.find?_eq_none]
      intro row hrow
      obtain ⟨hm, hp⟩ := opcodeTable_rows row hrow
      rw [hm, hp, BitVec.and_allOnes, beq_iff_eq]
      exact h _
    unfold decode
    split
    · exact ⟨_, rfl⟩
    · rw [none]; exact ⟨_, rfl⟩

theorem decode_eq_command {w : BusWord} {i : Instr} : decode w = .command i ↔ w = encode i := by
  rcases decode_spec w with ⟨j, rfl, e⟩ | ⟨ne, why, e⟩
  · rw [e]
    constructor
    · intro h; cases h; rfl
    · intro h
      have := decode_encode i
      rw [← h, e] at this
      exact this
  · simp [e, ne]

end Sys2Proof
end

