-- ==== Sys2Proof/Laws/State.lean ====
section
/-! SUPPORT. What each named update of the state does to each field, by rfl; the STATUS updates field by field; and
what `setReg` leaves alone. Later proofs cite these and unfold no update. -/

namespace Sys2Proof.Machine

variable (s : State)


/-! ### State.accept -/

@[simp] theorem State.accept_params (v : BusWord) : (s.accept v).params = s.params := rfl
@[simp] theorem State.accept_cmd (v : BusWord) : (s.accept v).cmd = v := rfl
@[simp] theorem State.accept_status (v : BusWord) : (s.accept v).status = Status.accepted := rfl
@[simp] theorem State.accept_opa (v : BusWord) : (s.accept v).opa = s.opa := rfl
@[simp] theorem State.accept_opb (v : BusWord) : (s.accept v).opb = s.opb := rfl
@[simp] theorem State.accept_opm (v : BusWord) : (s.accept v).opm = s.opm := rfl
@[simp] theorem State.accept_res (v : BusWord) : (s.accept v).res = s.res := rfl
@[simp] theorem State.accept_lcmd (v : BusWord) : (s.accept v).lcmd = v := rfl
@[simp] theorem State.accept_la (v : BusWord) : (s.accept v).la = s.opa := rfl
@[simp] theorem State.accept_lb (v : BusWord) : (s.accept v).lb = s.opb := rfl
@[simp] theorem State.accept_lm (v : BusWord) : (s.accept v).lm = s.opm := rfl
@[simp] theorem State.accept_resetPin (v : BusWord) : (s.accept v).resetPin = s.resetPin := rfl
@[simp] theorem State.accept_host (v : BusWord) : (s.accept v).host = s.host := rfl
@[simp] theorem State.accept_responses (v : BusWord) : (s.accept v).responses = s.responses := rfl
@[simp] theorem State.accept_latency (v : BusWord) : (s.accept v).latency = s.latency := rfl
@[simp] theorem State.accept_delay (v : BusWord) : (s.accept v).delay = s.delay := rfl
@[simp] theorem State.accept_pinChanges (v : BusWord) : (s.accept v).pinChanges = s.pinChanges := rfl

/-! ### State.dropCommand -/

@[simp] theorem State.dropCommand_params : s.dropCommand.params = s.params := rfl
@[simp] theorem State.dropCommand_cmd : s.dropCommand.cmd = s.cmd := rfl
@[simp] theorem State.dropCommand_status : s.dropCommand.status = s.status.dropped := rfl
@[simp] theorem State.dropCommand_opa : s.dropCommand.opa = s.opa := rfl
@[simp] theorem State.dropCommand_opb : s.dropCommand.opb = s.opb := rfl
@[simp] theorem State.dropCommand_opm : s.dropCommand.opm = s.opm := rfl
@[simp] theorem State.dropCommand_res : s.dropCommand.res = s.res := rfl
@[simp] theorem State.dropCommand_lcmd : s.dropCommand.lcmd = s.lcmd := rfl
@[simp] theorem State.dropCommand_la : s.dropCommand.la = s.la := rfl
@[simp] theorem State.dropCommand_lb : s.dropCommand.lb = s.lb := rfl
@[simp] theorem State.dropCommand_lm : s.dropCommand.lm = s.lm := rfl
@[simp] theorem State.dropCommand_resetPin : s.dropCommand.resetPin = s.resetPin := rfl
@[simp] theorem State.dropCommand_host : s.dropCommand.host = s.host := rfl
@[simp] theorem State.dropCommand_responses : s.dropCommand.responses = s.responses := rfl
@[simp] theorem State.dropCommand_latency : s.dropCommand.latency = s.latency := rfl
@[simp] theorem State.dropCommand_delay : s.dropCommand.delay = s.delay := rfl
@[simp] theorem State.dropCommand_pinChanges : s.dropCommand.pinChanges = s.pinChanges := rfl

/-! ### State.drawLatency -/

@[simp] theorem State.drawLatency_params : s.drawLatency.params = s.params := rfl
@[simp] theorem State.drawLatency_cmd : s.drawLatency.cmd = s.cmd := rfl
@[simp] theorem State.drawLatency_status : s.drawLatency.status = s.status := rfl
@[simp] theorem State.drawLatency_opa : s.drawLatency.opa = s.opa := rfl
@[simp] theorem State.drawLatency_opb : s.drawLatency.opb = s.opb := rfl
@[simp] theorem State.drawLatency_opm : s.drawLatency.opm = s.opm := rfl
@[simp] theorem State.drawLatency_res : s.drawLatency.res = s.res := rfl
@[simp] theorem State.drawLatency_lcmd : s.drawLatency.lcmd = s.lcmd := rfl
@[simp] theorem State.drawLatency_la : s.drawLatency.la = s.la := rfl
@[simp] theorem State.drawLatency_lb : s.drawLatency.lb = s.lb := rfl
@[simp] theorem State.drawLatency_lm : s.drawLatency.lm = s.lm := rfl
@[simp] theorem State.drawLatency_resetPin : s.drawLatency.resetPin = s.resetPin := rfl
@[simp] theorem State.drawLatency_host : s.drawLatency.host = s.host := rfl
@[simp] theorem State.drawLatency_responses : s.drawLatency.responses = s.responses := rfl
@[simp] theorem State.drawLatency_latency : s.drawLatency.latency = s.latency.tail := rfl
@[simp] theorem State.drawLatency_delay : s.drawLatency.delay = s.latency.headD 0 := rfl
@[simp] theorem State.drawLatency_pinChanges : s.drawLatency.pinChanges = s.pinChanges := rfl

/-! ### State.complete -/

@[simp] theorem State.complete_params (out : Result) : (s.complete out).params = s.params := rfl
@[simp] theorem State.complete_cmd (out : Result) : (s.complete out).cmd = s.cmd := rfl
@[simp] theorem State.complete_status (out : Result) : (s.complete out).status = s.status.completed out := rfl
@[simp] theorem State.complete_opa (out : Result) : (s.complete out).opa = s.opa := rfl
@[simp] theorem State.complete_opb (out : Result) : (s.complete out).opb = s.opb := rfl
@[simp] theorem State.complete_opm (out : Result) : (s.complete out).opm = s.opm := rfl
@[simp] theorem State.complete_res (out : Result) : (s.complete out).res = completedRes s.params.NW s.res out := rfl
@[simp] theorem State.complete_lcmd (out : Result) : (s.complete out).lcmd = s.lcmd := rfl
@[simp] theorem State.complete_la (out : Result) : (s.complete out).la = s.la := rfl
@[simp] theorem State.complete_lb (out : Result) : (s.complete out).lb = s.lb := rfl
@[simp] theorem State.complete_lm (out : Result) : (s.complete out).lm = s.lm := rfl
@[simp] theorem State.complete_resetPin (out : Result) : (s.complete out).resetPin = s.resetPin := rfl
@[simp] theorem State.complete_host (out : Result) : (s.complete out).host = s.host := rfl
@[simp] theorem State.complete_responses (out : Result) : (s.complete out).responses = s.responses := rfl
@[simp] theorem State.complete_latency (out : Result) : (s.complete out).latency = s.latency := rfl
@[simp] theorem State.complete_delay (out : Result) : (s.complete out).delay = s.delay := rfl
@[simp] theorem State.complete_pinChanges (out : Result) : (s.complete out).pinChanges = s.pinChanges := rfl

/-! ### State.resetRegisters -/

@[simp] theorem State.resetRegisters_params : s.resetRegisters.params = s.params := rfl
@[simp] theorem State.resetRegisters_cmd : s.resetRegisters.cmd = 0 := rfl
@[simp] theorem State.resetRegisters_status : s.resetRegisters.status = {} := rfl
@[simp] theorem State.resetRegisters_opa : s.resetRegisters.opa = zeroReg s.params := rfl
@[simp] theorem State.resetRegisters_opb : s.resetRegisters.opb = zeroReg s.params := rfl
@[simp] theorem State.resetRegisters_opm : s.resetRegisters.opm = zeroReg s.params := rfl
@[simp] theorem State.resetRegisters_res : s.resetRegisters.res = zeroReg s.params := rfl
@[simp] theorem State.resetRegisters_lcmd : s.resetRegisters.lcmd = 0 := rfl
@[simp] theorem State.resetRegisters_la : s.resetRegisters.la = zeroReg s.params := rfl
@[simp] theorem State.resetRegisters_lb : s.resetRegisters.lb = zeroReg s.params := rfl
@[simp] theorem State.resetRegisters_lm : s.resetRegisters.lm = zeroReg s.params := rfl
@[simp] theorem State.resetRegisters_resetPin : s.resetRegisters.resetPin = s.resetPin := rfl
@[simp] theorem State.resetRegisters_host : s.resetRegisters.host = s.host := rfl
@[simp] theorem State.resetRegisters_responses : s.resetRegisters.responses = s.responses := rfl
@[simp] theorem State.resetRegisters_latency : s.resetRegisters.latency = s.latency := rfl
@[simp] theorem State.resetRegisters_delay : s.resetRegisters.delay = 0 := rfl
@[simp] theorem State.resetRegisters_pinChanges : s.resetRegisters.pinChanges = s.pinChanges := rfl

/-! ### State.respond -/

@[simp] theorem State.respond_params (r : Response) : (s.respond r).params = s.params := rfl
@[simp] theorem State.respond_cmd (r : Response) : (s.respond r).cmd = s.cmd := rfl
@[simp] theorem State.respond_status (r : Response) : (s.respond r).status = s.status := rfl
@[simp] theorem State.respond_opa (r : Response) : (s.respond r).opa = s.opa := rfl
@[simp] theorem State.respond_opb (r : Response) : (s.respond r).opb = s.opb := rfl
@[simp] theorem State.respond_opm (r : Response) : (s.respond r).opm = s.opm := rfl
@[simp] theorem State.respond_res (r : Response) : (s.respond r).res = s.res := rfl
@[simp] theorem State.respond_lcmd (r : Response) : (s.respond r).lcmd = s.lcmd := rfl
@[simp] theorem State.respond_la (r : Response) : (s.respond r).la = s.la := rfl
@[simp] theorem State.respond_lb (r : Response) : (s.respond r).lb = s.lb := rfl
@[simp] theorem State.respond_lm (r : Response) : (s.respond r).lm = s.lm := rfl
@[simp] theorem State.respond_resetPin (r : Response) : (s.respond r).resetPin = s.resetPin := rfl
@[simp] theorem State.respond_host (r : Response) : (s.respond r).host = s.host := rfl
@[simp] theorem State.respond_responses (r : Response) : (s.respond r).responses = r :: s.responses := rfl
@[simp] theorem State.respond_latency (r : Response) : (s.respond r).latency = s.latency := rfl
@[simp] theorem State.respond_delay (r : Response) : (s.respond r).delay = s.delay := rfl
@[simp] theorem State.respond_pinChanges (r : Response) : (s.respond r).pinChanges = s.pinChanges := rfl

/-! ### State.elapse -/

@[simp] theorem State.elapse_params : s.elapse.params = s.params := rfl
@[simp] theorem State.elapse_cmd : s.elapse.cmd = s.cmd := rfl
@[simp] theorem State.elapse_status : s.elapse.status = s.status := rfl
@[simp] theorem State.elapse_opa : s.elapse.opa = s.opa := rfl
@[simp] theorem State.elapse_opb : s.elapse.opb = s.opb := rfl
@[simp] theorem State.elapse_opm : s.elapse.opm = s.opm := rfl
@[simp] theorem State.elapse_res : s.elapse.res = s.res := rfl
@[simp] theorem State.elapse_lcmd : s.elapse.lcmd = s.lcmd := rfl
@[simp] theorem State.elapse_la : s.elapse.la = s.la := rfl
@[simp] theorem State.elapse_lb : s.elapse.lb = s.lb := rfl
@[simp] theorem State.elapse_lm : s.elapse.lm = s.lm := rfl
@[simp] theorem State.elapse_resetPin : s.elapse.resetPin = s.resetPin := rfl
@[simp] theorem State.elapse_host : s.elapse.host = s.host := rfl
@[simp] theorem State.elapse_responses : s.elapse.responses = s.responses := rfl
@[simp] theorem State.elapse_latency : s.elapse.latency = s.latency := rfl
@[simp] theorem State.elapse_delay : s.elapse.delay = s.delay - 1 := rfl
@[simp] theorem State.elapse_pinChanges : s.elapse.pinChanges = countDown s.pinChanges := rfl

/-! ### State.withHost -/

@[simp] theorem State.withHost_params (moves : List HostMove) : (s.withHost moves).params = s.params := rfl
@[simp] theorem State.withHost_cmd (moves : List HostMove) : (s.withHost moves).cmd = s.cmd := rfl
@[simp] theorem State.withHost_status (moves : List HostMove) : (s.withHost moves).status = s.status := rfl
@[simp] theorem State.withHost_opa (moves : List HostMove) : (s.withHost moves).opa = s.opa := rfl
@[simp] theorem State.withHost_opb (moves : List HostMove) : (s.withHost moves).opb = s.opb := rfl
@[simp] theorem State.withHost_opm (moves : List HostMove) : (s.withHost moves).opm = s.opm := rfl
@[simp] theorem State.withHost_res (moves : List HostMove) : (s.withHost moves).res = s.res := rfl
@[simp] theorem State.withHost_lcmd (moves : List HostMove) : (s.withHost moves).lcmd = s.lcmd := rfl
@[simp] theorem State.withHost_la (moves : List HostMove) : (s.withHost moves).la = s.la := rfl
@[simp] theorem State.withHost_lb (moves : List HostMove) : (s.withHost moves).lb = s.lb := rfl
@[simp] theorem State.withHost_lm (moves : List HostMove) : (s.withHost moves).lm = s.lm := rfl
@[simp] theorem State.withHost_resetPin (moves : List HostMove) : (s.withHost moves).resetPin = s.resetPin := rfl
@[simp] theorem State.withHost_host (moves : List HostMove) : (s.withHost moves).host = moves := rfl
@[simp] theorem State.withHost_responses (moves : List HostMove) : (s.withHost moves).responses = s.responses := rfl
@[simp] theorem State.withHost_latency (moves : List HostMove) : (s.withHost moves).latency = s.latency := rfl
@[simp] theorem State.withHost_delay (moves : List HostMove) : (s.withHost moves).delay = s.delay := rfl
@[simp] theorem State.withHost_pinChanges (moves : List HostMove) : (s.withHost moves).pinChanges = s.pinChanges := rfl

/-! ### State.pollStep -/

@[simp] theorem State.pollStep_params (e : Bool) (rest : List HostMove) : (s.pollStep e rest).params = s.params := by cases e <;> rfl
@[simp] theorem State.pollStep_cmd (e : Bool) (rest : List HostMove) : (s.pollStep e rest).cmd = s.cmd := by cases e <;> rfl
@[simp] theorem State.pollStep_status (e : Bool) (rest : List HostMove) : (s.pollStep e rest).status = s.status := by cases e <;> rfl
@[simp] theorem State.pollStep_opa (e : Bool) (rest : List HostMove) : (s.pollStep e rest).opa = s.opa := by cases e <;> rfl
@[simp] theorem State.pollStep_opb (e : Bool) (rest : List HostMove) : (s.pollStep e rest).opb = s.opb := by cases e <;> rfl
@[simp] theorem State.pollStep_opm (e : Bool) (rest : List HostMove) : (s.pollStep e rest).opm = s.opm := by cases e <;> rfl
@[simp] theorem State.pollStep_res (e : Bool) (rest : List HostMove) : (s.pollStep e rest).res = s.res := by cases e <;> rfl
@[simp] theorem State.pollStep_lcmd (e : Bool) (rest : List HostMove) : (s.pollStep e rest).lcmd = s.lcmd := by cases e <;> rfl
@[simp] theorem State.pollStep_la (e : Bool) (rest : List HostMove) : (s.pollStep e rest).la = s.la := by cases e <;> rfl
@[simp] theorem State.pollStep_lb (e : Bool) (rest : List HostMove) : (s.pollStep e rest).lb = s.lb := by cases e <;> rfl
@[simp] theorem State.pollStep_lm (e : Bool) (rest : List HostMove) : (s.pollStep e rest).lm = s.lm := by cases e <;> rfl
@[simp] theorem State.pollStep_resetPin (e : Bool) (rest : List HostMove) : (s.pollStep e rest).resetPin = s.resetPin := by cases e <;> rfl
@[simp] theorem State.pollStep_latency (e : Bool) (rest : List HostMove) : (s.pollStep e rest).latency = s.latency := by cases e <;> rfl
@[simp] theorem State.pollStep_delay (e : Bool) (rest : List HostMove) : (s.pollStep e rest).delay = s.delay := by cases e <;> rfl
@[simp] theorem State.pollStep_pinChanges (e : Bool) (rest : List HostMove) : (s.pollStep e rest).pinChanges = s.pinChanges := by cases e <;> rfl
@[simp] theorem State.pollStep_host (e : Bool) (rest : List HostMove) :
    (s.pollStep e rest).host = if e then rest else s.host := by cases e <;> rfl
@[simp] theorem State.pollStep_responses (e : Bool) (rest : List HostMove) :
    (s.pollStep e rest).responses = s.busRead 0x008 4 :: s.responses := by cases e <;> rfl
@[simp] theorem State.pollStep_inReset (e : Bool) (rest : List HostMove) : (s.pollStep e rest).inReset = s.inReset := by
  cases e <;> rfl

/-! ### State.withCommand -/

@[simp] theorem State.withCommand_params (v : BusWord) : (s.withCommand v).params = s.params := rfl
@[simp] theorem State.withCommand_cmd (v : BusWord) : (s.withCommand v).cmd = v := rfl
@[simp] theorem State.withCommand_status (v : BusWord) : (s.withCommand v).status = Status.accepted := rfl
@[simp] theorem State.withCommand_opa (v : BusWord) : (s.withCommand v).opa = s.opa := rfl
@[simp] theorem State.withCommand_opb (v : BusWord) : (s.withCommand v).opb = s.opb := rfl
@[simp] theorem State.withCommand_opm (v : BusWord) : (s.withCommand v).opm = s.opm := rfl
@[simp] theorem State.withCommand_res (v : BusWord) : (s.withCommand v).res = s.res := rfl
@[simp] theorem State.withCommand_lcmd (v : BusWord) : (s.withCommand v).lcmd = v := rfl
@[simp] theorem State.withCommand_la (v : BusWord) : (s.withCommand v).la = s.opa := rfl
@[simp] theorem State.withCommand_lb (v : BusWord) : (s.withCommand v).lb = s.opb := rfl
@[simp] theorem State.withCommand_lm (v : BusWord) : (s.withCommand v).lm = s.opm := rfl
@[simp] theorem State.withCommand_resetPin (v : BusWord) : (s.withCommand v).resetPin = !s.params.resetActive := rfl
@[simp] theorem State.withCommand_host (v : BusWord) : (s.withCommand v).host = s.host := rfl
@[simp] theorem State.withCommand_responses (v : BusWord) : (s.withCommand v).responses = s.responses := rfl
@[simp] theorem State.withCommand_latency (v : BusWord) : (s.withCommand v).latency = s.latency := rfl
@[simp] theorem State.withCommand_delay (v : BusWord) : (s.withCommand v).delay = 0 := rfl
@[simp] theorem State.withCommand_pinChanges (v : BusWord) : (s.withCommand v).pinChanges = [] := rfl

/-! ### STATUS -/

@[simp] theorem Status.accepted_busy : Status.accepted.busy = true := rfl
@[simp] theorem Status.accepted_done : Status.accepted.done = false := rfl
@[simp] theorem Status.accepted_err : Status.accepted.err = false := rfl
@[simp] theorem Status.accepted_prime : Status.accepted.prime = false := rfl
@[simp] theorem Status.accepted_noinv : Status.accepted.noinv = false := rfl
@[simp] theorem Status.accepted_ovr : Status.accepted.ovr = false := rfl
@[simp] theorem Status.accepted_errcode : Status.accepted.errcode = .none := rfl
@[simp] theorem Status.dropped_busy (st : Status) : st.dropped.busy = st.busy := rfl
@[simp] theorem Status.dropped_done (st : Status) : st.dropped.done = st.done := rfl
@[simp] theorem Status.dropped_err (st : Status) : st.dropped.err = st.err := rfl
@[simp] theorem Status.dropped_prime (st : Status) : st.dropped.prime = st.prime := rfl
@[simp] theorem Status.dropped_noinv (st : Status) : st.dropped.noinv = st.noinv := rfl
@[simp] theorem Status.dropped_ovr (st : Status) : st.dropped.ovr = true := rfl
@[simp] theorem Status.dropped_errcode (st : Status) : st.dropped.errcode = st.errcode := rfl

@[simp] theorem Status.completed_busy (st : Status) (out : Result) : (st.completed out).busy = false := by
  cases out <;> rfl
@[simp] theorem Status.completed_done (st : Status) (out : Result) : (st.completed out).done = true := by
  cases out <;> rfl
@[simp] theorem Status.completed_ovr (st : Status) (out : Result) : (st.completed out).ovr = st.ovr := by
  cases out <;> rfl

@[simp] theorem Status.completed_ok_err (st : Status) (r : Nat) (p ni : Bool) : (st.completed (.ok r p ni)).err = false := rfl
@[simp] theorem Status.completed_err_err (st : Status) (c : ErrCode) : (st.completed (.err c)).err = true := rfl
@[simp] theorem Status.completed_ok_prime (st : Status) (r : Nat) (p ni : Bool) : (st.completed (.ok r p ni)).prime = p := rfl
@[simp] theorem Status.completed_err_prime (st : Status) (c : ErrCode) : (st.completed (.err c)).prime = false := rfl
@[simp] theorem Status.completed_ok_noinv (st : Status) (r : Nat) (p ni : Bool) : (st.completed (.ok r p ni)).noinv = ni := rfl
@[simp] theorem Status.completed_err_noinv (st : Status) (c : ErrCode) : (st.completed (.err c)).noinv = false := rfl
@[simp] theorem Status.completed_ok_errcode (st : Status) (r : Nat) (p ni : Bool) : (st.completed (.ok r p ni)).errcode = .none := rfl
@[simp] theorem Status.completed_err_errcode (st : Status) (c : ErrCode) : (st.completed (.err c)).errcode = c := rfl

@[simp] theorem completedRes_ok (words : Nat) (old : Reg) (r : Nat) (p ni : Bool) :
    completedRes words old (.ok r p ni) = regOfNat words r := rfl
@[simp] theorem completedRes_err (words : Nat) (old : Reg) (c : ErrCode) : completedRes words old (.err c) = old := rfl

/-- Completing twice with one outcome writes the same flags (OVR stands apart). -/
@[simp] theorem Status.completed_completed (st : Status) (o o' : Result) :
    (st.completed o).completed o' = st.completed o' := by
  cases o <;> cases o' <;> rfl

/-! ### State.setReg -/

@[simp] theorem State.setReg_params (v : Reg) (r : RegName) : (s.setReg v r).params = s.params := by cases r <;> rfl
@[simp] theorem State.setReg_cmd (v : Reg) (r : RegName) : (s.setReg v r).cmd = s.cmd := by cases r <;> rfl
@[simp] theorem State.setReg_status (v : Reg) (r : RegName) : (s.setReg v r).status = s.status := by cases r <;> rfl
@[simp] theorem State.setReg_res (v : Reg) (r : RegName) : (s.setReg v r).res = s.res := by cases r <;> rfl
@[simp] theorem State.setReg_lcmd (v : Reg) (r : RegName) : (s.setReg v r).lcmd = s.lcmd := by cases r <;> rfl
@[simp] theorem State.setReg_la (v : Reg) (r : RegName) : (s.setReg v r).la = s.la := by cases r <;> rfl
@[simp] theorem State.setReg_lb (v : Reg) (r : RegName) : (s.setReg v r).lb = s.lb := by cases r <;> rfl
@[simp] theorem State.setReg_lm (v : Reg) (r : RegName) : (s.setReg v r).lm = s.lm := by cases r <;> rfl
@[simp] theorem State.setReg_resetPin (v : Reg) (r : RegName) : (s.setReg v r).resetPin = s.resetPin := by cases r <;> rfl
@[simp] theorem State.setReg_host (v : Reg) (r : RegName) : (s.setReg v r).host = s.host := by cases r <;> rfl
@[simp] theorem State.setReg_responses (v : Reg) (r : RegName) : (s.setReg v r).responses = s.responses := by cases r <;> rfl
@[simp] theorem State.setReg_latency (v : Reg) (r : RegName) : (s.setReg v r).latency = s.latency := by cases r <;> rfl
@[simp] theorem State.setReg_delay (v : Reg) (r : RegName) : (s.setReg v r).delay = s.delay := by cases r <;> rfl
@[simp] theorem State.setReg_pinChanges (v : Reg) (r : RegName) : (s.setReg v r).pinChanges = s.pinChanges := by cases r <;> rfl

/-- Writing a register other than RES sets it. -/
theorem State.setReg_reg_same (v : Reg) {r : RegName} (h : r ≠ .res) : (s.setReg v r).reg r = v := by
  cases r <;> simp_all [State.setReg, State.reg]

/-- Writing a register leaves every other register alone. -/
theorem State.setReg_reg_ne (v : Reg) {r q : RegName} (h : q ≠ r) : (s.setReg v r).reg q = s.reg q := by
  cases r <;> cases q <;> simp_all [State.setReg, State.reg]

/-! ### Views of the state through updates that touch no register -/

@[simp] theorem State.respond_inReset (r : Response) : (s.respond r).inReset = s.inReset := rfl
@[simp] theorem State.respond_reg (r : Response) (q : RegName) : (s.respond r).reg q = s.reg q := by cases q <;> rfl
@[simp] theorem State.respond_readWord (r : Response) (off : Nat) : (s.respond r).readWord off = s.readWord off := by
  unfold State.readWord; simp
@[simp] theorem State.elapse_inReset : s.elapse.inReset = s.inReset := rfl
@[simp] theorem State.elapse_reg (q : RegName) : s.elapse.reg q = s.reg q := by cases q <;> rfl
@[simp] theorem State.elapse_readWord (off : Nat) : s.elapse.readWord off = s.readWord off := by
  unfold State.readWord; simp
@[simp] theorem State.withHost_inReset (moves : List HostMove) : (s.withHost moves).inReset = s.inReset := rfl
@[simp] theorem State.withHost_reg (moves : List HostMove) (q : RegName) : (s.withHost moves).reg q = s.reg q := by cases q <;> rfl
@[simp] theorem State.withHost_readWord (moves : List HostMove) (off : Nat) : (s.withHost moves).readWord off = s.readWord off := by
  unfold State.readWord; simp

@[simp] theorem State.complete_inReset (out : Result) : (s.complete out).inReset = s.inReset := rfl

end Sys2Proof.Machine
end

