-- ==== Sys2Proof/Laws/Registers.lean ====
section
/-! SUPPORT. The integer a register holds, reading and writing one of its words (spec/20_memory.md R54, R55), and the
width of registers. -/

namespace Sys2Proof.Machine

@[simp] theorem regOfNat_length (words v : Nat) : (regOfNat words v).length = words := by
  induction words generalizing v with
  | zero => rfl
  | succ k ih => simp [regOfNat, ih]

/-- A register of n words holds a value of 32n bits. -/
theorem regValue_lt (r : Reg) : regValue r < 2 ^ (32 * r.length) := by
  induction r with
  | nil => simp [regValue]
  | cons w ws ih =>
    rw [regValue, List.length_cons, Nat.mul_add, pow_add, mul_one]
    have := w.isLt
    omega

/-- The integer of the register that stores v is v, cut to the register's width. -/
theorem regValue_regOfNat (words v : Nat) : regValue (regOfNat words v) = v % 2 ^ (32 * words) := by
  induction words generalizing v with
  | zero => simp [regOfNat, regValue, Nat.mod_one]
  | succ k ih =>
    rw [regOfNat, regValue, ih, BitVec.toNat_ofNat, Nat.mul_add, Nat.add_comm (32 * k), pow_add, mul_one,
      Nat.mod_mul]

theorem regOfNat_regValue (r : Reg) : regOfNat r.length (regValue r) = r := by
  induction r with
  | nil => rfl
  | cons w ws ih =>
    have := w.isLt
    rw [List.length_cons, regOfNat, regValue, show (w.toNat + 2 ^ 32 * regValue ws) / 2 ^ 32 = regValue ws by omega, ih]
    congr 1
    apply BitVec.eq_of_toNat_eq
    rw [BitVec.toNat_ofNat]
    omega

/-- R54: word k of a register is the slice [32k+31 : 32k] of its value. -/
theorem regWord_toNat (r : Reg) (k : Nat) : (regWord r k).toNat = regValue r / 2 ^ (32 * k) % 2 ^ 32 := by
  induction r generalizing k with
  | nil => simp [regWord, regValue]
  | cons w ws ih =>
    have := w.isLt
    cases k with
    | zero => simp [regWord, regValue]; omega
    | succ k =>
      have e : regWord (w :: ws) (k + 1) = regWord ws k := rfl
      rw [e, ih, regValue, Nat.mul_add, Nat.add_comm (32 * k), pow_add, mul_one, ← Nat.div_div_eq_div_mul]
      congr 2
      omega

/-- R54, R55: a word written is the word read, and every other word is kept. -/
theorem regWord_setRegWord {r : Reg} {k : Nat} (hk : k < r.length) (v : BusWord) (j : Nat) :
    regWord (setRegWord r k v) j = if j = k then v else regWord r j := by
  unfold regWord setRegWord
  by_cases h : j = k
  · subst h; simp [hk]
  · simp [List.getD, h, Ne.symm h]

@[simp] theorem setRegWord_length (r : Reg) (k : Nat) (v : BusWord) : (setRegWord r k v).length = r.length := by
  simp [setRegWord]

theorem setRegWord_idem (r : Reg) (k : Nat) (v : BusWord) : setRegWord (setRegWord r k v) k v = setRegWord r k v := by
  simp [setRegWord]

@[simp] theorem zeroReg_length (p : Params) : (zeroReg p).length = p.NW := by simp [zeroReg]

@[simp] theorem regValue_zeroReg (p : Params) : regValue (zeroReg p) = 0 := by
  unfold zeroReg
  induction p.NW with
  | zero => rfl
  | succ n ih => rw [List.replicate_succ, regValue, ih]; rfl

/-- What R8 says of well-formed parameters, as propositions. -/
theorem params_wf_iff (p : Params) : p.wf = true ↔
    p.W % 32 = 0 ∧ 32 ≤ p.W ∧ p.W ≤ 512 ∧ (∀ a ∈ p.witnesses, a < 2 ^ p.W) ∧ p.base % 0x200 = 0 := by
  simp [Params.wf, Params.widthAligned, Params.widthInRange, Params.witnessesFit, Params.baseAligned, and_assoc]

theorem NW_le {p : Params} (h : p.wf = true) : p.NW ≤ 16 := by
  have := ((params_wf_iff p).1 h).2.2.1
  unfold Params.NW; omega

theorem NW_pos {p : Params} (h : p.wf = true) : 0 < p.NW := by
  have := ((params_wf_iff p).1 h).2.1
  unfold Params.NW; omega

theorem NW_mul {p : Params} (h : p.wf = true) : 32 * p.NW = p.W := by
  have := ((params_wf_iff p).1 h).1
  unfold Params.NW; omega

/-- A register of the right width holds a W-bit value. -/
theorem fitsWidth_value {p : Params} (hp : p.wf = true) {r : Reg} (h : fitsWidth p r) : regValue r < 2 ^ p.W := by
  have := regValue_lt r
  rwa [h, NW_mul hp] at this

/-- A W-bit value survives being stored in a register. -/
theorem regValue_store {p : Params} (hp : p.wf = true) {v : Nat} (hv : v < 2 ^ p.W) :
    regValue (regOfNat p.NW v) = v := by
  rw [regValue_regOfNat, NW_mul hp, Nat.mod_eq_of_lt hv]

end Sys2Proof.Machine
end

