-- ==== Sys2Proof/Laws/Window.lean ====
section
/-! SUPPORT. The register map (spec/20_memory.md R53) and what a read and a write of the window do: one spec lemma for
each. -/

namespace Sys2Proof.Machine

@[simp] theorem slotAt_id (p : Params) : slotAt p 0x000 = .id := rfl
@[simp] theorem slotAt_cmd (p : Params) : slotAt p 0x004 = .cmd := rfl
@[simp] theorem slotAt_status (p : Params) : slotAt p 0x008 = .status := rfl

/-- Word k of a register's slot: the offset's quotient by 0x40 is the slot's number, and its remainder is 4k. -/
theorem slotAt_word {p : Params} (r : RegName) {k : Nat} (hk : k < 16) :
    slotAt p (r.slot + 4 * k) = Slot.word p r k := by
  have place : (r.slot + 4 * k) % 0x040 / 4 = k := by cases r <;> simp only [RegName.slot] <;> omega
  have number : (r.slot + 4 * k) / 0x040 = r.slot / 0x040 := by cases r <;> simp only [RegName.slot] <;> omega
  simp only [slotAt, place, number]
  cases r <;> rfl

/-- R53: the words k < NW of the W-bit registers. -/
theorem slotAt_reg {p : Params} (h : p.wf = true) (r : RegName) {k : Nat} (hk : k < p.NW) :
    slotAt p (r.slot + 4 * k) = .reg r k := by
  rw [slotAt_word r (lt_of_lt_of_le hk (NW_le h)), Slot.word, if_pos hk]

theorem controlSlot_cases (off : Nat) :
    (off = 0 ∧ controlSlot off = .id) ∨ (off = 4 ∧ controlSlot off = .cmd) ∨ (off = 8 ∧ controlSlot off = .status) ∨
      (off ≠ 0 ∧ off ≠ 4 ∧ off ≠ 8 ∧ controlSlot off = .reserved) := by
  unfold controlSlot
  split <;> simp_all

/-- The inverse of the map: where each kind of slot stands. -/
theorem slotAt_cases {p : Params} {off : Nat} (aligned : off % 4 = 0) :
    (off = 0 ∧ slotAt p off = .id) ∨ (off = 4 ∧ slotAt p off = .cmd) ∨ (off = 8 ∧ slotAt p off = .status) ∨
      (∃ r k, k < p.NW ∧ off = r.slot + 4 * k ∧ slotAt p off = .reg r k) ∨
      (off ≠ 0 ∧ off ≠ 4 ∧ off ≠ 8 ∧ slotAt p off = .reserved) := by
  have word : ∀ r : RegName, off / 0x040 = r.slot / 0x040 →
      (∃ q k, k < p.NW ∧ off = q.slot + 4 * k ∧ Slot.word p r (off % 0x040 / 4) = .reg q k) ∨
        (off ≠ 0 ∧ off ≠ 4 ∧ off ≠ 8 ∧ Slot.word p r (off % 0x040 / 4) = .reserved) := by
    intro r number
    unfold Slot.word
    split
    next hk => exact .inl ⟨r, off % 0x040 / 4, hk, by cases r <;> simp only [RegName.slot] at * <;> omega, rfl⟩
    next => exact .inr (by cases r <;> simp only [RegName.slot] at number <;> refine ⟨?_, ?_, ?_, rfl⟩ <;> omega)
  unfold slotAt
  split
  next =>
    rcases controlSlot_cases off with h | h | h | h
    · exact .inl h
    · exact .inr (.inl h)
    · exact .inr (.inr (.inl h))
    · exact .inr (.inr (.inr (.inr h)))
  next h => exact .inr (.inr (.inr (word .opa h)))
  next h => exact .inr (.inr (.inr (word .opb h)))
  next h => exact .inr (.inr (.inr (word .opm h)))
  next h => exact .inr (.inr (.inr (word .res h)))
  next n0 _ _ _ _ =>
    have far : off / 0x040 ≠ 0 := n0
    exact .inr (.inr (.inr (.inr ⟨by omega, by omega, by omega, rfl⟩)))

/-- A slot that is CMD stands at offset 4. -/
theorem slotAt_eq_cmd {p : Params} {off : Nat} (aligned : off % 4 = 0) : slotAt p off = .cmd ↔ off = 4 := by
  constructor
  · intro h
    rcases slotAt_cases (p := p) aligned with ⟨_, e⟩ | ⟨e, _⟩ | ⟨_, e⟩ | ⟨_, _, _, _, e⟩ | ⟨_, _, _, e⟩ <;> simp_all
  · rintro rfl; exact slotAt_cmd p

theorem busAccessOK_iff (off n : Nat) : busAccessOK off n = true ↔ n = 4 ∧ off % 4 = 0 ∧ off < 0x200 := by
  simp [busAccessOK, and_assoc]

/-- Everything a bus write can do: nothing, set one word of OPA, OPB or OPM, or write CMD. -/
theorem busWrite_cases (s : State) (off n : Nat) (v : BitVec (8 * n)) :
    s.busWrite off n v = s ∨
      (∃ r k, r ≠ .res ∧ k < s.params.NW ∧ n = 4 ∧ off = r.slot + 4 * k ∧
        s.busWrite off n v = s.setReg (setRegWord (s.reg r) k (v.setWidth 32)) r) ∨
      (n = 4 ∧ off = 4 ∧ s.busWrite off n v = s.writeCmd (v.setWidth 32)) := by
  unfold State.busWrite
  split
  next h =>
    obtain ⟨hn, aligned, _⟩ := (busAccessOK_iff _ _).1 h
    unfold State.writeWord
    rcases slotAt_cases (p := s.params) aligned with ⟨_, e⟩ | ⟨o, e⟩ | ⟨_, e⟩ | ⟨r, k, hk, o, e⟩ | ⟨_, _, _, e⟩ <;> rw [e]
    · exact .inl rfl
    · exact .inr (.inr ⟨hn, o, rfl⟩)
    · exact .inl rfl
    · by_cases hr : r = .res
      · subst hr; exact .inl rfl
      · exact .inr (.inl ⟨r, k, hr, hk, hn, o, rfl⟩)
    · exact .inl rfl
  · exact .inl rfl

theorem busWrite_cmd (s : State) (v : BusWord) : s.busWrite 0x004 4 v = s.writeCmd v := by
  simp [State.busWrite, busAccessOK, State.writeWord]

/-- No bus write touches the coming changes of the reset input, or the input. -/
@[simp] theorem busWrite_pinChanges (s : State) (off n : Nat) (v : BitVec (8 * n)) :
    (s.busWrite off n v).pinChanges = s.pinChanges := by
  rcases busWrite_cases s off n v with e | ⟨r, k, _, _, _, _, e⟩ | ⟨_, _, e⟩ <;> rw [e]
  · simp
  · unfold State.writeCmd; split <;> simp

@[simp] theorem busWrite_inReset (s : State) (off n : Nat) (v : BitVec (8 * n)) :
    (s.busWrite off n v).inReset = s.inReset := by
  rcases busWrite_cases s off n v with e | ⟨r, k, _, _, _, _, e⟩ | ⟨_, _, e⟩ <;> rw [e]
  · simp [State.inReset]
  · unfold State.writeCmd; split <;> simp [State.inReset]

/-- R58: an operand write repeated changes nothing. -/
theorem busWrite_idem (s : State) {off n : Nat} (v : BitVec (8 * n)) (h : off ≠ 0x004) :
    (s.busWrite off n v).busWrite off n v = s.busWrite off n v := by
  by_cases ok : busAccessOK off n = true
  · have legal : ∀ x : State, x.busWrite off n v = x.writeWord off (v.setWidth 32) := fun x => if_pos ok
    obtain ⟨_, aligned, _⟩ := (busAccessOK_iff _ _).1 ok
    rw [legal, legal]
    rcases slotAt_cases (p := s.params) aligned with ⟨_, e⟩ | ⟨o, _⟩ | ⟨_, e⟩ | ⟨r, k, _, _, e⟩ | ⟨_, _, _, e⟩
    · simp [State.writeWord, e]
    · exact absurd o h
    · simp [State.writeWord, e]
    · cases r <;> simp [State.writeWord, e, State.setReg, State.reg, setRegWord_idem]
    · simp [State.writeWord, e]
  · have none : ∀ x : State, x.busWrite off n v = x := fun x => if_neg ok
    rw [none, none]

/-- A write other than to CMD touches OPA, OPB and OPM alone, and does to them what it would do in any state with the
same parameters and operand registers. -/
theorem busWrite_operands_only (s x : State) {off n : Nat} (v : BitVec (8 * n)) (h : off ≠ 0x004)
    (hp : x.params = s.params) (ha : x.opa = s.opa) (hb : x.opb = s.opb) (hm : x.opm = s.opm) :
    x.busWrite off n v =
      { x with opa := (s.busWrite off n v).opa, opb := (s.busWrite off n v).opb, opm := (s.busWrite off n v).opm } := by
  by_cases ok : busAccessOK off n = true
  · have legal : ∀ y : State, y.busWrite off n v = y.writeWord off (v.setWidth 32) := fun y => if_pos ok
    obtain ⟨_, aligned, _⟩ := (busAccessOK_iff _ _).1 ok
    rw [legal, legal]
    rcases slotAt_cases (p := s.params) aligned with ⟨_, e⟩ | ⟨o, _⟩ | ⟨_, e⟩ | ⟨r, k, _, _, e⟩ | ⟨_, _, _, e⟩
    · simp only [State.writeWord, (congrArg (slotAt · off) hp).trans e, e, ← ha, ← hb, ← hm]
    · exact absurd o h
    · simp only [State.writeWord, (congrArg (slotAt · off) hp).trans e, e, ← ha, ← hb, ← hm]
    · cases r <;>
        simp only [State.writeWord, (congrArg (slotAt · off) hp).trans e, e, State.setReg, State.reg, ← ha, ← hb, ← hm]
    · simp only [State.writeWord, (congrArg (slotAt · off) hp).trans e, e, ← ha, ← hb, ← hm]
  · have none : ∀ y : State, y.busWrite off n v = y := fun y => if_neg ok
    rw [none, none, ← ha, ← hb, ← hm]

/-- A legal write at word k < NW of an operand register sets that word. -/
theorem busWrite_operand {s : State} (h : s.params.wf = true) {r : RegName} {k : Nat} (hk : k < s.params.NW)
    (v : BusWord) : s.busWrite (r.slot + 4 * k) 4 v = s.setReg (setRegWord (s.reg r) k v) r := by
  have le := NW_le h
  have ok : busAccessOK (r.slot + 4 * k) 4 = true := by
    rw [busAccessOK_iff]; cases r <;> simp [RegName.slot] <;> omega
  rw [State.busWrite, if_pos ok, State.writeWord, slotAt_reg h r hk]
  simp

end Sys2Proof.Machine
end

