-- ==== Sys2Proof/Laws/Step.lean ====
section
/-! SUPPORT. What a command's meaning, the engine's step, the host's step and a step can do: one lemma for each, from
which every invariant follows. -/

namespace Sys2Proof.Machine

/-- R77 on the eight command words. -/
theorem exec_eq (i : Instr) (s : State) :
    exec i s = .next (s.complete (execReference s.params (encode i) s.opA s.opB s.opM)) := by
  cases i <;> rfl

/-- R73, R77: a word that is no command word has the outcome ILLEGAL. -/
theorem execReference_illegal (p : Params) {w : BusWord} (h : ∀ i, w ≠ encode i) (a b m : Nat) :
    execReference p w a b m = .err .illegal := by
  have no : ∀ i, w.toNat ≠ (encode i).toNat := fun i e => h i (BitVec.eq_of_toNat_eq e)
  have n1 := no .mulmod; have n2 := no .powmod; have n3 := no .gcd; have n4 := no .modinv
  have n5 := no .mrwit; have n6 := no .isprime; have n7 := no .encrypt; have n8 := no .decrypt
  simp only [encode, BitVec.toNat_ofNat, BitVec.ofNat_eq_ofNat] at n1 n2 n3 n4 n5 n6 n7 n8
  unfold execReference
  split
  · rfl
  · split <;> first | rfl | omega

/-- R40: the engine's step is the completion with the outcome of Exec. -/
theorem engineStep_eq (s : State) : engineStep s = .next (s.complete s.outcome) := by
  unfold engineStep State.fetch State.outcome
  rcases decode_spec s.lcmd with ⟨i, e, d⟩ | ⟨ne, why, d⟩
  · rw [d, e]; exact exec_eq i s
  · rw [d, execReference_illegal _ ne]

/-! ### Whose turn it is -/

theorem dueChange_eq_some {s : State} {level : Bool} :
    s.dueChange = some level ↔ ∃ rest, s.pinChanges = { after := 0, level := level } :: rest := by
  unfold State.dueChange
  split
  next l rest e => simp [e]
  next no =>
    refine iff_of_false (by simp) ?_
    rintro ⟨rest, e⟩
    exact no level rest e

theorem dueChange_eq_none {s : State} : s.dueChange = none ↔ ∀ c ∈ s.pinChanges.head?, 0 < c.after := by
  unfold State.dueChange
  split
  next l rest e => simp [e]
  next no =>
    refine iff_of_true rfl fun c hc => ?_
    obtain ⟨rest, e⟩ : ∃ rest, s.pinChanges = c :: rest := by
      cases e : s.pinChanges with
      | nil => simp [e] at hc
      | cons d rest => rw [e, List.head?_cons, Option.mem_some_iff] at hc; exact ⟨rest, by rw [hc]⟩
    refine Nat.pos_of_ne_zero fun zero => no c.level rest ?_
    rw [e, ← zero]

theorem turn_eq_reset {s : State} {level : Bool} : s.turn = .reset level ↔ s.dueChange = some level := by
  unfold State.turn
  cases s.dueChange with
  | some l => simp
  | none => dsimp only; split <;> simp

theorem turn_eq_engine {s : State} :
    s.turn = .engine ↔ s.dueChange = none ∧ s.status.busy = true ∧ s.inReset = false ∧ s.delay = 0 := by
  unfold State.turn
  cases s.dueChange with
  | some l => simp
  | none => simp [and_assoc]

theorem turn_eq_host {s : State} :
    s.turn = .host ↔ s.dueChange = none ∧ ¬(s.status.busy = true ∧ s.inReset = false ∧ s.delay = 0) := by
  unfold State.turn
  cases s.dueChange with
  | some l => simp
  | none => simp [and_assoc]

theorem step_reset {s : State} {level : Bool} (h : s.turn = .reset level) : step s = .next (s.pinStep level) := by
  rw [step, h]

theorem step_engine {s : State} (h : s.turn = .engine) : step s = .next (s.complete s.outcome) := by
  rw [step, h]; exact engineStep_eq s

theorem step_host {s : State} (h : s.turn = .host) : step s = hostStep s.elapse := by
  rw [step, h]

/-- Everything the host's step can do. -/
theorem hostStep_cases {s t : State} (h : hostStep s = .next t) :
    (s.host = [] ∧ t = s) ∨
    (∃ off n rest, s.host = .read off n :: rest ∧ s.inReset = false ∧
      t = (s.withHost rest).respond (s.busRead off n)) ∨
    (∃ off n v rest, s.host = .write off n v :: rest ∧ s.inReset = false ∧
      t = ((s.withHost rest).busWrite off n v).respond (busWriteResponse off n)) ∨
    (∃ rest, s.host = .wait :: rest ∧ s.inReset = false ∧ t = s.pollStep (!s.status.busy) rest) ∨
    (∃ rest, s.host = .waitDone :: rest ∧ s.inReset = false ∧ t = s.pollStep s.status.done rest) := by
  unfold hostStep at h
  split at h
  next e => cases h; exact .inl ⟨e, rfl⟩
  next off n rest e =>
    split at h
    · cases h
    next hr => cases h; exact .inr (.inl ⟨off, n, rest, e, by simpa using hr, rfl⟩)
  next off n v rest e =>
    split at h
    · cases h
    next hr => cases h; exact .inr (.inr (.inl ⟨off, n, v, rest, e, by simpa using hr, rfl⟩))
  next rest e =>
    split at h
    · cases h
    next hr => cases h; exact .inr (.inr (.inr (.inl ⟨rest, e, by simpa using hr, rfl⟩)))
  next rest e =>
    split at h
    · cases h
    next hr => cases h; exact .inr (.inr (.inr (.inr ⟨rest, e, by simpa using hr, rfl⟩)))

/-- Everything a step can do: a change of the reset input, a completion, or a step of the host side. -/
theorem step_cases {s t : State} (h : step s = .next t) :
    (∃ level, s.turn = .reset level ∧ t = s.pinStep level) ∨ (s.turn = .engine ∧ t = s.complete s.outcome) ∨
      (s.turn = .host ∧ hostStep s.elapse = .next t) := by
  cases e : s.turn with
  | reset level => rw [step_reset e] at h; cases h; exact .inl ⟨level, rfl, rfl⟩
  | engine => rw [step_engine e] at h; cases h; exact .inr (.inl ⟨rfl, rfl⟩)
  | host => rw [step_host e] at h; exact .inr (.inr ⟨rfl, h⟩)

/-- Everything a step can do, move by move. -/
theorem step_move_cases {s t : State} (h : step s = .next t) :
    (∃ level, s.turn = .reset level ∧ t = s.pinStep level) ∨ (s.turn = .engine ∧ t = s.complete s.outcome) ∨
    (s.turn = .host ∧
      ((s.host = [] ∧ t = s.elapse) ∨
      (∃ off n rest, s.host = .read off n :: rest ∧ s.inReset = false ∧
        t = (s.elapse.withHost rest).respond (s.elapse.busRead off n)) ∨
      (∃ off n v rest, s.host = .write off n v :: rest ∧ s.inReset = false ∧
        t = ((s.elapse.withHost rest).busWrite off n v).respond (busWriteResponse off n)) ∨
      (∃ rest, s.host = .wait :: rest ∧ s.inReset = false ∧ t = s.elapse.pollStep (!s.status.busy) rest) ∨
      (∃ rest, s.host = .waitDone :: rest ∧ s.inReset = false ∧ t = s.elapse.pollStep s.status.done rest))) :=
  (step_cases h).imp id fun h => h.imp id fun ⟨turn, h⟩ => ⟨turn, hostStep_cases h⟩

/-! ### A step of the host side, move by move -/

section
variable {s : State} (turn : s.turn = .host)
include turn

theorem step_no_move (hm : s.host = []) : step s = .next s.elapse := by
  rw [step_host turn, hostStep, State.elapse_host, hm]

theorem step_read (hr : s.inReset = false) {off n : Nat} {rest : List HostMove} (hm : s.host = .read off n :: rest) :
    step s = .next ((s.elapse.withHost rest).respond (s.elapse.busRead off n)) := by
  rw [step_host turn, hostStep, State.elapse_host, hm]
  exact if_neg (by rw [State.elapse_inReset, hr]; decide)

theorem step_write (hr : s.inReset = false) {off n : Nat} {v : BitVec (8 * n)} {rest : List HostMove}
    (hm : s.host = .write off n v :: rest) :
    step s = .next (((s.elapse.withHost rest).busWrite off n v).respond (busWriteResponse off n)) := by
  rw [step_host turn, hostStep, State.elapse_host, hm]
  exact if_neg (by rw [State.elapse_inReset, hr]; decide)

theorem step_wait (hr : s.inReset = false) {rest : List HostMove} (hm : s.host = .wait :: rest) :
    step s = .next (s.elapse.pollStep (!s.status.busy) rest) := by
  rw [step_host turn, hostStep, State.elapse_host, hm]
  exact if_neg (by rw [State.elapse_inReset, hr]; decide)

theorem step_waitDone (hr : s.inReset = false) {rest : List HostMove} (hm : s.host = .waitDone :: rest) :
    step s = .next (s.elapse.pollStep s.status.done rest) := by
  rw [step_host turn, hostStep, State.elapse_host, hm]
  exact if_neg (by rw [State.elapse_inReset, hr]; decide)

theorem step_in_reset (hr : s.inReset = true) {m : HostMove} {rest : List HostMove} (hm : s.host = m :: rest) :
    step s = .fault .transactionDuringReset := by
  have e : s.elapse.inReset = true := hr
  rw [step_host turn, hostStep, State.elapse_host, hm]
  cases m with
  | read off n => exact if_pos e
  | write off n v => exact if_pos e
  | wait => exact if_pos e
  | waitDone => exact if_pos e

end

/-- Everything a write of CMD can do (R36, R37). -/
theorem writeCmd_cases (s : State) (v : BusWord) :
    (s.status.busy = true ∧ s.writeCmd v = s.dropCommand) ∨
      (s.status.busy = false ∧ s.writeCmd v = (s.accept v).drawLatency) := by
  unfold State.writeCmd
  cases h : s.status.busy with
  | true => exact .inl ⟨rfl, rfl⟩
  | false => exact .inr ⟨rfl, rfl⟩

/-- Everything a level of the reset input can do (R240). -/
theorem driveReset_cases (s : State) (level : Bool) :
    (level = s.params.resetActive ∧ s.driveReset level = { s with resetPin := level }.resetRegisters) ∨
      (level ≠ s.params.resetActive ∧ s.driveReset level = { s with resetPin := level }) := by
  unfold State.driveReset
  by_cases h : level = s.params.resetActive
  · exact .inl ⟨h, if_pos (by simp [h])⟩
  · exact .inr ⟨h, if_neg (by simpa using h)⟩

/-- Everything a step of the reset input can do. -/
theorem pinStep_cases (s : State) (level : Bool) :
    (level = s.params.resetActive ∧
      s.pinStep level = { s.resetRegisters with pinChanges := s.pinChanges.tail, resetPin := level }) ∨
    (level ≠ s.params.resetActive ∧ s.pinStep level = { s with pinChanges := s.pinChanges.tail, resetPin := level }) := by
  unfold State.pinStep
  exact (driveReset_cases { s with pinChanges := s.pinChanges.tail } level).imp (fun h => h) fun h => h

end Sys2Proof.Machine
end

