-- ==== Sys2Proof/Laws/Outcome.lean ====
section
/-! SUPPORT. The value of every successful command is a W-bit value (the last sentence of spec/10_state.md R40), and
running several steps. -/

namespace Sys2Proof.Machine

theorem roundCode_le (o : RoundOutcome) : o.code ≤ 2 := by cases o <;> decide

theorem execReference_lt {p : Params} (hp : p.wf = true) {w : BusWord} {a b m : Nat} (ha : a < 2 ^ p.W)
    (hb : b < 2 ^ p.W) (hm : m < 2 ^ p.W) {r : Nat} {pr ni : Bool} (h : execReference p w a b m = .ok r pr ni) :
    r < 2 ^ p.W := by
  have big : 2 ^ 32 ≤ 2 ^ p.W := Nat.pow_le_pow_right (by decide) ((params_wf_iff p).1 hp).2.1
  unfold execReference at h
  split at h
  · cases h
  · split at h
    · unfold mulmodF at h
      split at h
      · cases h
      · cases h; exact lt_trans (mulMod_lt (by omega)) hm
    · unfold powmodF at h
      split at h
      · cases h
      · cases h; exact lt_trans (powMod_lt _ _ (by omega)) hm
    · unfold gcdF at h
      cases h
      rw [euclidGcd_eq]
      rcases Nat.eq_zero_or_pos a with rfl | ha0
      · simpa using hb
      · exact lt_of_le_of_lt (Nat.gcd_le_left _ ha0) ha
    · unfold modinvF at h
      split at h
      · cases h; omega
      next v e => cases h; exact lt_trans (modInverse_lt e) hm
    · unfold mrwitF at h
      split at h
      · cases h
      · cases h; have := roundCode_le (mrRound a m); omega
    · unfold isprimeF at h
      cases h
      have := Bool.toNat_le (isPrimeAlg p.witnesses m); omega
    · unfold encryptF at h
      split at h
      · cases h
      · split at h
        · cases h
        · cases h; exact lt_trans (powMod_lt _ _ (by omega)) hm
    · unfold decryptF at h
      split at h
      · cases h
      · cases h; omega
    · cases h

theorem runSteps_zero (s : State) : runSteps 0 s = .next s := rfl

theorem runSteps_succ_next {k : Nat} {s t : State} (h : step s = .next t) : runSteps (k + 1) s = runSteps k t := by
  rw [runSteps, h]

/-- Runs compose. -/
theorem runSteps_add {j k : Nat} : ∀ {s t : State}, runSteps j s = .next t → runSteps (j + k) s = runSteps k t := by
  induction j with
  | zero => intro s t h; cases h; rw [Nat.zero_add]
  | succ j ih =>
    intro s t h
    rw [runSteps] at h
    split at h
    next u e => rw [Nat.add_right_comm, runSteps_succ_next e, ih h]
    · cases h
    · cases h

end Sys2Proof.Machine
end

