-- ==== Sys2Proof/Laws/PerInstr.lean ====
section
/-! SUPPORT. The statements made per instruction: the family Encoding. -/

/-- A command is well-formed, its word is one R73 calls legal, and the decoder reads it back, as a word and from its
byte lanes. -/
def Sys2Proof.Laws.Encoding.Statement (i : Sys2Proof.Instr) : Prop :=
  i.wf = true ∧ Sys2Proof.legalCommandWord (Sys2Proof.encode i) = true ∧
    Sys2Proof.decode (Sys2Proof.encode i) = .command i ∧ Sys2Proof.decodeBytes (Sys2Proof.encodeBytes i) = .command i

namespace Sys2Proof.Laws.Encoding

theorem mulmod : Statement .mulmod := by unfold Statement; decide
theorem powmod : Statement .powmod := by unfold Statement; decide
theorem gcd : Statement .gcd := by unfold Statement; decide
theorem modinv : Statement .modinv := by unfold Statement; decide
theorem mrwit : Statement .mrwit := by unfold Statement; decide
theorem isprime : Statement .isprime := by unfold Statement; decide
theorem encrypt : Statement .encrypt := by unfold Statement; decide
theorem decrypt : Statement .decrypt := by unfold Statement; decide

end Sys2Proof.Laws.Encoding
end

