-- ==== Sys2Proof/Laws/Primality.lean ====
section
/-! SUPPORT. What a Miller-Rabin round and the whole test compute (spec/42_primality.md R140 to R143). -/

namespace Sys2Proof.Machine

/-- R140: the model's round rejects exactly when the witness fails. -/
theorem mrRound_eq_composite {a n : Nat} (odd : n % 2 = 1) (hn : 3 ≤ n) :
    mrRound a n = .composite ↔ RoundRejects a n := by
  obtain ⟨dodd, dmul⟩ := decompose_spec (v := n - 1) (by omega)
  have spos : 0 < (decompose (n - 1)).2 := by
    rcases Nat.eq_zero_or_pos (decompose (n - 1)).2 with e | e
    · rw [e, pow_zero, mul_one] at dmul; omega
    · exact e
  have pow : powMod a (decompose (n - 1)).1 n = a ^ (decompose (n - 1)).1 % n := powMod_eq _ _ (by omega)
  have sq : ∀ r, (a ^ (decompose (n - 1)).1 % n) ^ 2 ^ r % n = a ^ ((decompose (n - 1)).1 * 2 ^ r) % n := by
    intro r; rw [← Nat.pow_mod, ← pow_mul]
  have not_pass : ∀ k x, squareLoop k x n = .composite ↔ ¬ squareLoop k x n = .pass := by
    intro k
    induction k with
    | zero => simp [squareLoop]
    | succ k ih => intro x; unfold squareLoop; split <;> simp [ih]
  unfold mrRound RoundRejects
  split
  next h => simp; omega
  next h =>
    simp only [pow]
    have key : (∀ r < (decompose (n - 1)).2, a ^ ((decompose (n - 1)).1 * 2 ^ r) % n ≠ n - 1) ↔
        a ^ (decompose (n - 1)).1 % n ≠ n - 1 ∧
          ¬ ∃ r, r < (decompose (n - 1)).2 - 1 ∧ (a ^ (decompose (n - 1)).1 % n) ^ 2 ^ (r + 1) % n = n - 1 := by
      constructor
      · intro all
        refine ⟨by simpa using all 0 spos, ?_⟩
        rintro ⟨r, hr, e⟩
        exact all (r + 1) (by omega) (by rw [← sq]; exact e)
      · rintro ⟨first, rest⟩ r hr
        cases r with
        | zero => simpa using first
        | succ r => exact fun e => rest ⟨r, by omega, by rw [sq]; exact e⟩
    have only : (∃ d k, d % 2 = 1 ∧ n - 1 = d * 2 ^ k ∧ a ^ d % n ≠ 1 ∧ ∀ r < k, a ^ (d * 2 ^ r) % n ≠ n - 1) ↔
        a ^ (decompose (n - 1)).1 % n ≠ 1 ∧
          ∀ r < (decompose (n - 1)).2, a ^ ((decompose (n - 1)).1 * 2 ^ r) % n ≠ n - 1 := by
      constructor
      · rintro ⟨d, k, hd, e, rest⟩
        obtain ⟨rfl, rfl⟩ := odd_mul_two_pow_unique hd dodd (e.symm.trans dmul.symm)
        exact rest
      · intro rest
        exact ⟨_, _, dodd, dmul.symm, rest⟩
    rw [only, key]
    split
    next hx => simp; tauto
    next hx =>
      rw [not_pass, squareLoop_eq_pass]
      push Not at hx
      simp [hx.1, hx.2, not_le.1 h]

theorem mrRound_eq_skipped {a n : Nat} : mrRound a n = .skipped ↔ n ≤ a := by
  have no : ∀ k x, squareLoop k x n ≠ .skipped := by
    intro k
    induction k with
    | zero => simp [squareLoop]
    | succ k ih => intro x; unfold squareLoop; split <;> simp [ih]
  unfold mrRound
  split
  next h => simp [h]
  next h => dsimp only; split <;> simp [h, no]

/-- R143: the test's verdict, in terms of failing witnesses. -/
theorem isPrimeAlg_eq_true {ws : List Nat} {n : Nat} :
    isPrimeAlg ws n = true ↔ n = 2 ∨ n = 3 ∨ (3 < n ∧ n % 2 = 1 ∧ ∀ a ∈ ws, ¬ RoundRejects a n) := by
  unfold isPrimeAlg
  split
  next h => simp; omega
  next h =>
    split
    next even => simp; omega
    next odd =>
      have round : ∀ a, mrRound a n = .composite ↔ RoundRejects a n :=
        fun a => mrRound_eq_composite (by omega) (by omega)
      simp only [List.all_eq_true, bne_iff_ne, ne_eq, round]
      constructor
      · exact fun all => .inr (.inr ⟨by omega, by omega, all⟩)
      · rintro (rfl | rfl | ⟨_, _, all⟩)
        · omega
        · omega
        · exact all

/-- In a ring without zero divisors a power 2^k that is 1 is reached from 1 or through -1. -/
theorem pow_two_pow_eq_one {R : Type} [CommRing R] [NoZeroDivisors R] (y : R) :
    ∀ k, y ^ 2 ^ k = 1 → y = 1 ∨ ∃ r < k, y ^ 2 ^ r = -1
  | 0, h => .inl (by simpa using h)
  | k + 1, h => by
    rw [pow_succ, pow_mul] at h
    rcases mul_self_eq_one_iff.1 (by rwa [pow_two] at h) with e | e
    · rcases pow_two_pow_eq_one y k e with e | ⟨r, hr, e⟩
      · exact .inl e
      · exact .inr ⟨r, by omega, e⟩
    · exact .inr ⟨k, by omega, e⟩

end Sys2Proof.Machine
end

