-- ==== Sys2Proof/Tests/Slice0.lean ====
section
/-! SUPPORT. Tests: ill-formed terms, decoded words, one step per command, and a witness for the hypotheses of every
statement that has any. Every expected value is the spec's (spec/95_test_vectors.md and the rules' worked examples). -/

namespace Sys2Proof.Tests

open Sys2Proof Sys2Proof.Machine Sys2Proof.Claim

/-! ### Well-formedness -/

theorem test_wf_default : Params.default.wf = true := by decide
theorem test_wf_width_not_multiple : ({ Params.default with W := 48 }).widthAligned = false := by decide
theorem test_wf_width_zero : ({ Params.default with W := 0 }).widthInRange = false := by decide
theorem test_wf_width_too_big : ({ Params.default with W := 544 }).widthInRange = false := by decide
theorem test_wf_width_bounds : ({ Params.default with W := 32 }).wf = true ∧ ({ Params.default with W := 512 }).wf = true := by
  decide +kernel
theorem test_wf_witness_too_big : ({ Params.default with W := 32, witnesses := [2, 2 ^ 32] }).witnessesFit = false := by
  decide
theorem test_wf_base_misaligned : ({ Params.default with base := 0x100 }).baseAligned = false := by decide
theorem test_wf_refuses : ({ Params.default with W := 48 }).wf = false ∧ ({ Params.default with W := 0 }).wf = false ∧
    ({ Params.default with W := 544 }).wf = false ∧ ({ Params.default with witnesses := [2 ^ 64] }).wf = false ∧
    ({ Params.default with base := 0x100 }).wf = false := by decide +kernel
theorem test_wf_command_words : legalCommandWord 0x1 = true ∧ legalCommandWord 0x8 = true ∧ legalCommandWord 0x0 = false ∧
    legalCommandWord 0x9 = false ∧ legalCommandWord 0x101 = false := by decide
theorem test_wf_instr : Instr.wf .mulmod = true := rfl

/-- R2's own example. -/
theorem test_config_string : Params.default.configString = "RSACORE-CMD v1 W=64 WIT=2,7,61" := by decide +kernel

/-! ### Decoding: the words of R72, bit by bit, and R73's illegal words (95_test_vectors.md, CD vectors) -/

theorem test_decode_mulmod : decode 0b00000000000000000000000000000001#32 = .command .mulmod := by decide
theorem test_decode_powmod : decode 0b00000000000000000000000000000010#32 = .command .powmod := by decide
theorem test_decode_gcd : decode 0b00000000000000000000000000000011#32 = .command .gcd := by decide
theorem test_decode_modinv : decode 0b00000000000000000000000000000100#32 = .command .modinv := by decide
theorem test_decode_mrwit : decode 0b00000000000000000000000000000101#32 = .command .mrwit := by decide
theorem test_decode_isprime : decode 0b00000000000000000000000000000110#32 = .command .isprime := by decide
theorem test_decode_encrypt : decode 0b00000000000000000000000000000111#32 = .command .encrypt := by decide
theorem test_decode_decrypt : decode 0b00000000000000000000000000001000#32 = .command .decrypt := by decide
theorem test_decode_op_zero : decode 0x00000000#32 = .rejected .reservedOpcode := by decide
theorem test_decode_op_nine : decode 0x00000009#32 = .rejected .reservedOpcode := by decide
theorem test_decode_op_ff : decode 0x000000FF#32 = .rejected .reservedOpcode := by decide
theorem test_decode_rsvd_low : decode 0x00000101#32 = .rejected .reservedBits := by decide
theorem test_decode_rsvd_high : decode 0x80000001#32 = .rejected .reservedBits := by decide
theorem test_decode_lanes : decodeBytes [0x05, 0x00, 0x00, 0x00] = .command .mrwit ∧
    decodeBytes [0x00, 0x00, 0x00, 0x05] = .rejected .reservedBits ∧
    decodeBytes [0x05, 0x00, 0x00] = .rejected .notOneWord := by decide
theorem test_decode_table_word : decodeTableWord 32 8 = some .decrypt ∧ decodeTableWord 8 3 = some .gcd ∧
    decodeTableWord 32 9 = none ∧ decodeTableWord 64 3 = none := by decide
/-- Every row of the table is another word, and its mask is the whole word (R72). -/
theorem test_table_rows_disjoint : opcodeTable.Pairwise (fun r q => r.pattern ≠ q.pattern) ∧
    ∀ r ∈ opcodeTable, r.mask = 0xFFFFFFFF := by decide

/-! ### One step per command -/

/-- A machine at reset with the operands loaded and the word w accepted. -/
def fly (w a b m : Nat) : State :=
  { State.reset with opa := regOfNat 2 a, opb := regOfNat 2 b, opm := regOfNat 2 m }.withFetchWord 32 w

/-- The value of RES and the STATUS word after the next step. -/
def report (s : State) : Option (Nat × Nat) :=
  match step s with
  | .next t => some (regValue t.res, t.status.word.toNat)
  | .fault _ | .refused _ => none

/-- R101's worked example. -/
theorem test_mulmod_double_width : report (fly 1 0xFFFFFFFFFFFFFFFF 0xFFFFFFFFFFFFFFFF 0xFFFFFFFFFFFFFFC5) = some (3364, 0x2) := by
  decide +kernel
theorem test_mulmod_modzero : report (fly 1 5 7 0) = some (0, 0x206) := by decide +kernel
/-- R104's worked example. -/
theorem test_powmod_example : report (fly 2 2 10 1000) = some (24, 0x2) := by decide +kernel
/-- R103: powmod(0, 0, 1) = 0. -/
theorem test_powmod_mod_one : report (fly 2 0 0 1) = some (0, 0x2) := by decide +kernel
/-- R121's worked example. -/
theorem test_gcd_example : report (fly 3 48 18 0) = some (6, 0x2) := by decide +kernel
/-- R121: gcd(0, b) = b. -/
theorem test_gcd_zero_left : report (fly 3 0 7 0) = some (7, 0x2) := by decide +kernel
/-- R126: a = 14, m = 11 give 4. -/
theorem test_modinv_reduces : report (fly 4 14 0 11) = some (4, 0x2) := by decide +kernel
/-- R126: m = 1 gives NONE. -/
theorem test_modinv_none : report (fly 4 1 0 1) = some (0, 0x12) := by decide +kernel
/-- R142's worked example. -/
theorem test_mrwit_example : report (fly 5 2 0 561) = some (0, 0x2) := by decide +kernel
/-- R142: a >= n gives SKIPPED. -/
theorem test_mrwit_skipped : report (fly 5 9 0 9) = some (2, 0xA) := by decide +kernel
/-- R144's worked example. -/
theorem test_isprime_example : report (fly 6 0 0 7919) = some (1, 0xA) := by decide +kernel
/-- R144: 2047 passes witness 2 and fails witness 7. -/
theorem test_isprime_pseudoprime : report (fly 6 0 0 2047) = some (0, 0x2) := by decide +kernel
/-- R160's worked example. -/
theorem test_encrypt_example : report (fly 7 72 65537 1022117) = some (92944, 0x2) := by decide +kernel
/-- R204: n = 0 and byte > 255 together report MODZERO. -/
theorem test_encrypt_priority : report (fly 7 256 3 0) = some (0, 0x206) := by decide +kernel
/-- R161's worked example. -/
theorem test_decrypt_example : report (fly 8 92944 832193 1022117) = some (72, 0x2) := by decide +kernel
/-- R161: the high bits are discarded. -/
theorem test_decrypt_truncates : report (fly 8 1000 1 1022117) = some (232, 0x2) := by decide +kernel
/-- R201. -/
theorem test_illegal_word : report (fly 0x109 1 1 0) = some (0, 0x106) := by decide +kernel

/-! ### Witnesses -/

/-- An idle machine with the given moves pending. -/
def pending (moves : List HostMove) : State := { State.reset with host := moves }

/-- The same with an outcome reported, OVR set and every register non-zero. -/
def reported (moves : List HostMove) : State :=
  { fly 8 1 2 3 with
    host := moves, res := [5#32, 6#32], delay := 0
    status := { done := true, ovr := true } }

/-- A machine with MULMOD in flight on 2, 10, 1000, its completion two host steps away. -/
def flying (moves : List HostMove) : State := { fly 1 2 10 1000 with host := moves, delay := 2 }

/-- The same machine with reset about to be applied. -/
def pulsed (s : State) : State := { s with pinChanges := [{ after := 0, level := true }] }

theorem quiet {s : State} (h : s.pinChanges = []) (n : Nat) : quietFor n s := by simp [quietFor, h]

theorem default_NW : Params.default.NW = 2 := by decide

theorem fly_inv (w a b m : Nat) : Inv (fly w a b m) where
  params_wf := (by decide : Params.default.wf = true)
  opa_fits := by simp [fitsWidth, fly, State.reset, State.withFetchWord, State.withCommand, State.accept, default_NW]
  opb_fits := by simp [fitsWidth, fly, State.reset, State.withFetchWord, State.withCommand, State.accept, default_NW]
  opm_fits := by simp [fitsWidth, fly, State.reset, State.withFetchWord, State.withCommand, State.accept, default_NW]
  res_fits := by simp [fitsWidth, fly, State.reset, State.withFetchWord, State.withCommand, State.accept, default_NW]
  la_fits := by simp [fitsWidth, fly, State.reset, State.withFetchWord, State.withCommand, State.accept, default_NW]
  lb_fits := by simp [fitsWidth, fly, State.reset, State.withFetchWord, State.withCommand, State.accept, default_NW]
  lm_fits := by simp [fitsWidth, fly, State.reset, State.withFetchWord, State.withCommand, State.accept, default_NW]
  cmd_latched := rfl
  not_busy_and_done := fun h => Bool.noConfusion h.2
  err_iff_code := ⟨fun h => Bool.noConfusion h, fun h => absurd rfl h⟩
  err_done := fun h => Bool.noConfusion h
  prime_report := fun h => Bool.noConfusion h
  noinv_report := fun h => Bool.noConfusion h
  idle_no_delay := fun h => Bool.noConfusion h

theorem pending_inv (moves : List HostMove) : Inv (pending moves) where
  params_wf := (by decide : Params.default.wf = true)
  opa_fits := by simp [fitsWidth, pending, State.reset, default_NW]
  opb_fits := by simp [fitsWidth, pending, State.reset, default_NW]
  opm_fits := by simp [fitsWidth, pending, State.reset, default_NW]
  res_fits := by simp [fitsWidth, pending, State.reset, default_NW]
  la_fits := by simp [fitsWidth, pending, State.reset, default_NW]
  lb_fits := by simp [fitsWidth, pending, State.reset, default_NW]
  lm_fits := by simp [fitsWidth, pending, State.reset, default_NW]
  cmd_latched := rfl
  not_busy_and_done := fun h => Bool.noConfusion h.1
  err_iff_code := ⟨fun h => Bool.noConfusion h, fun h => absurd rfl h⟩
  err_done := fun h => Bool.noConfusion h
  prime_report := fun h => Bool.noConfusion h
  noinv_report := fun h => Bool.noConfusion h
  idle_no_delay := fun _ => rfl

theorem reported_inv (moves : List HostMove) : Inv (reported moves) where
  params_wf := (by decide : Params.default.wf = true)
  opa_fits := by
    simp [fitsWidth, reported, fly, State.reset, State.withFetchWord, State.withCommand, State.accept, default_NW]
  opb_fits := by
    simp [fitsWidth, reported, fly, State.reset, State.withFetchWord, State.withCommand, State.accept, default_NW]
  opm_fits := by
    simp [fitsWidth, reported, fly, State.reset, State.withFetchWord, State.withCommand, State.accept, default_NW]
  res_fits := by
    simp [fitsWidth, reported, fly, State.reset, State.withFetchWord, State.withCommand, State.accept, default_NW]
  la_fits := by
    simp [fitsWidth, reported, fly, State.reset, State.withFetchWord, State.withCommand, State.accept, default_NW]
  lb_fits := by
    simp [fitsWidth, reported, fly, State.reset, State.withFetchWord, State.withCommand, State.accept, default_NW]
  lm_fits := by
    simp [fitsWidth, reported, fly, State.reset, State.withFetchWord, State.withCommand, State.accept, default_NW]
  cmd_latched := rfl
  not_busy_and_done := fun h => Bool.noConfusion h.1
  err_iff_code := ⟨fun h => Bool.noConfusion h, fun h => absurd rfl h⟩
  err_done := fun h => Bool.noConfusion h
  prime_report := fun h => Bool.noConfusion h
  noinv_report := fun h => Bool.noConfusion h
  idle_no_delay := fun _ => rfl

/-- The same machine, 512 bits wide: NW = 16, so every word slot of the window is used. -/
def wide (moves : List HostMove) : State :=
  { State.reset with
    params := { Params.default with W := 512 }
    opa := List.replicate 16 1, opb := List.replicate 16 2, opm := List.replicate 16 3, res := List.replicate 16 4
    la := List.replicate 16 0, lb := List.replicate 16 0, lm := List.replicate 16 0, host := moves }

theorem wide_wf (moves : List HostMove) : (wide moves).params.wf = true := by
  show ({ Params.default with W := 512 } : Params).wf = true
  decide +kernel

theorem witness_ByteLanesLittleEndian : 0 < 4 ∧ 3 < 4 := by decide

theorem witness_StepRunsTheCommandInFlight :
    completionDue (fly 1 2 10 1000) ∧ decode (fly 1 2 10 1000).lcmd = .command .mulmod := ⟨⟨quiet rfl _, rfl, rfl, rfl⟩, rfl⟩

theorem witness_CompletionIsExecOfTheLatches :
    completionDue (fly 4 3 0 11) ∧ completionDue (fly 1 2 10 0) ∧ Inv (fly 4 3 0 11) ∧
    execReference Params.default 4 3 0 11 = .ok 4 false false ∧
    execReference Params.default 1 2 10 0 = .err .modzero :=
  ⟨⟨quiet rfl _, rfl, rfl, rfl⟩, ⟨quiet rfl _, rfl, rfl, rfl⟩, fly_inv .., by decide +kernel, by decide⟩

theorem witness_IllegalWordCompletes :
    Inv (fly 0x101 2 10 1000) ∧ completionDue (fly 0x101 2 10 1000) ∧ (fly 0x101 2 10 1000).cmd.toNat / 2 ^ 8 ≠ 0 ∧
    completionDue (fly 0x00 2 10 1000) ∧ (fly 0x00 2 10 1000).cmd.toNat % 2 ^ 8 = 0 ∧
    completionDue (fly 0x09 2 10 1000) ∧ 9 ≤ (fly 0x09 2 10 1000).cmd.toNat % 2 ^ 8 :=
  ⟨fly_inv .., ⟨quiet rfl _, rfl, rfl, rfl⟩, by decide, ⟨quiet rfl _, rfl, rfl, rfl⟩, by decide, ⟨quiet rfl _, rfl, rfl, rfl⟩, by decide⟩

theorem witness_CommandInFlightCompletes :
    (flying [wr 0x040 99, cmd .gcd]).status.busy = true ∧ (flying [wr 0x040 99, cmd .gcd]).inReset = false ∧
    quietFor (flying [wr 0x040 99, cmd .gcd]).delay (flying [wr 0x040 99, cmd .gcd]) ∧
    execReference Params.default 1 2 10 1000 = .ok 20 false false ∧
    (fly 1 2 10 0).status.busy = true ∧ (fly 1 2 10 0).inReset = false ∧
    quietFor (fly 1 2 10 0).delay (fly 1 2 10 0) ∧
    execReference Params.default 1 2 10 0 = .err .modzero :=
  ⟨rfl, rfl, quiet rfl _, by decide, rfl, rfl, quiet rfl _, by decide⟩

theorem witness_StepStopsOnlyDuringReset :
    quietFor 0 { pending [rd 0] with resetPin := true } ∧ ({ pending [rd 0] with resetPin := true }).inReset = true ∧
    step { pending [rd 0] with resetPin := true } = .fault .transactionDuringReset ∧
    (pending [rd 0]).inReset = false := ⟨quiet rfl _, rfl, rfl, rfl⟩

theorem witness_AcceptanceLatches :
    (pending [cmd .gcd]).status.busy = false ∧ (pending [cmd .gcd]).inReset = false ∧ quietFor 0 (pending [cmd .gcd]) ∧
    writesCmd (pending [cmd .gcd]) 3#32 := ⟨rfl, rfl, quiet rfl _, [], rfl⟩

theorem witness_CommandWhileBusyIsDropped :
    (flying [cmd .gcd]).status.busy = true ∧ hostTurn (flying [cmd .gcd]) ∧ (flying [cmd .gcd]).inReset = false ∧
    writesCmd (flying [cmd .gcd]) 3#32 := ⟨rfl, ⟨quiet rfl _, .inr (by decide)⟩, rfl, [], rfl⟩

/-- One witness for each word of each operand register, idle and busy. -/
theorem witness_OperandWordWrite :
    (∀ off ∈ [0x040, 0x044, 0x080, 0x084, 0x0C0, 0x0C4], Inv (pending [wr off 7]) ∧ hostTurn (pending [wr off 7]) ∧
      (pending [wr off 7]).inReset = false ∧ (pending [wr off 7]).host = .write off 4 7#32 :: []) ∧
    (0 < State.reset.params.NW ∧ 1 < State.reset.params.NW) ∧
    (0x040 = 0x040 + 4 * 0 ∧ 0x044 = 0x040 + 4 * 1 ∧ 0x080 = 0x080 + 4 * 0 ∧ 0x084 = 0x080 + 4 * 1 ∧
      0x0C0 = 0x0C0 + 4 * 0 ∧ 0x0C4 = 0x0C0 + 4 * 1) ∧
    hostTurn (flying [wr 0x044 7]) :=
  ⟨fun _ _ => ⟨pending_inv _, ⟨quiet rfl _, .inl rfl⟩, rfl, rfl⟩, by decide, by decide, ⟨quiet rfl _, .inr (by decide)⟩⟩

/-- The offsets at which a read's clauses meet, at W = 64 (two words used of each slot). -/
theorem witness_WindowReads :
    (∀ off ∈ [0x000, 0x004, 0x008, 0x00C, 0x03C, 0x040, 0x044, 0x048, 0x07C, 0x080, 0x084, 0x088, 0x0BC, 0x0C0, 0x0C4,
        0x0C8, 0x0FC, 0x100, 0x104, 0x108, 0x13C, 0x140, 0x1FC],
      (pending [rd off]).params.wf = true ∧ hostTurn (pending [rd off]) ∧ (pending [rd off]).inReset = false ∧
      legalAccess off 4 ∧ (pending [rd off]).host = .read off 4 :: []) ∧
    (∀ off ∈ [0x040, 0x044, 0x080, 0x084, 0x0C0, 0x0C4], isOperandWord Params.default off) ∧
    (∀ off ∈ [0x100, 0x104], isResultWord Params.default off) ∧
    (∀ off ∈ [0x00C, 0x03C, 0x048, 0x07C, 0x088, 0x0BC, 0x0C8, 0x0FC, 0x108, 0x13C, 0x140, 0x1FC],
      ¬ isOperandWord Params.default off ∧ ¬ isResultWord Params.default off) := by
  refine ⟨fun off h => ⟨(pending_inv _).params_wf, ⟨quiet rfl _, .inl rfl⟩, rfl, ?_, rfl⟩, ?_, ?_, ?_⟩
  · revert off; unfold legalAccess; decide
  · unfold isOperandWord; decide
  · unfold isResultWord; decide
  · unfold isOperandWord isResultWord; decide

/-- The last word of each slot at W = 512, where no slot is unused. -/
theorem witness_WindowReads_wide :
    (wide [rd 0x13C]).params.wf = true ∧ hostTurn (wide [rd 0x13C]) ∧ (wide [rd 0x13C]).inReset = false ∧
    15 < (wide [rd 0x13C]).params.NW ∧ 0x13C = 0x100 + 4 * 15 ∧ 0x07C = 0x040 + 4 * 15 ∧
    ¬ isResultWord (wide []).params 0x140 := by
  refine ⟨wide_wf _, ⟨quiet rfl _, .inl rfl⟩, rfl, by decide, rfl, rfl, ?_⟩
  unfold isResultWord; decide

theorem witness_ReadOnlyWritesIgnored :
    ∀ off ∈ [0x000, 0x008, 0x100, 0x104], (pending [wr off 7]).params.wf = true ∧ hostTurn (pending [wr off 7]) ∧
      (pending [wr off 7]).inReset = false ∧ (pending [wr off 7]).host = .write off 4 7#32 :: [] ∧
      (off = 0x000 ∨ off = 0x008 ∨ isResultWord (pending [wr off 7]).params off) := by
  refine fun off h => ⟨(pending_inv _).params_wf, ⟨quiet rfl _, .inl rfl⟩, rfl, rfl, ?_⟩
  show off = 0x000 ∨ off = 0x008 ∨ isResultWord Params.default off
  revert off; unfold isResultWord; decide

theorem witness_ReservedOffsets :
    (∀ off ∈ [0x00C, 0x03C, 0x048, 0x07C, 0x088, 0x0BC, 0x0C8, 0x0FC, 0x108, 0x13C, 0x140, 0x1FC],
      legalAccess off 4 ∧ off ≠ 0x000 ∧ off ≠ 0x004 ∧ off ≠ 0x008 ∧ ¬ isOperandWord Params.default off ∧
      ¬ isResultWord Params.default off) ∧
    (pending [rd 0x048]).params.wf = true ∧ hostTurn (pending [rd 0x048]) ∧ (pending [rd 0x048]).inReset = false ∧
    (pending [rd 0x048]).host = .read 0x048 4 :: [] ∧ (pending [wr 0x048 1]).host = .write 0x048 4 1#32 :: [] := by
  refine ⟨?_, (pending_inv _).params_wf, ⟨quiet rfl _, .inl rfl⟩, rfl, rfl, rfl⟩
  unfold legalAccess isOperandWord isResultWord; decide

theorem witness_IllegalAccessIsBusError :
    (∀ x ∈ [(0x040, 1), (0x040, 2), (0x040, 8), (0x040, 0), (0x002, 4), (0x001, 1), (0x200, 4)], ¬ legalAccess x.1 x.2) ∧
    hostTurn (pending [.read 0x002 4]) ∧ (pending [.read 0x002 4]).inReset = false ∧
    (pending [.read 0x002 4]).host = .read 0x002 4 :: [] ∧
    (pending [.write 0x040 1 0xFF#8]).host = .write 0x040 1 0xFF#8 :: [] := by
  refine ⟨?_, ⟨quiet rfl _, .inl rfl⟩, rfl, rfl, rfl⟩
  unfold legalAccess; decide

theorem witness_RepeatedTransactions :
    (pending [rd 0x100, rd 0x100]).status.busy = false ∧ (pending [rd 0x100, rd 0x100]).inReset = false ∧
    (pending [rd 0x100, rd 0x100]).host = .read 0x100 4 :: .read 0x100 4 :: [] ∧
    (pending [wr 0x040 7, wr 0x040 7]).host = .write 0x040 4 7#32 :: .write 0x040 4 7#32 :: [] ∧ 0x040 ≠ 0x004 ∧
    ({ pending [cmd .gcd, cmd .gcd] with latency := [1] }).host = .write 0x004 4 3#32 :: .write 0x004 4 3#32 :: [] ∧
    0 < ({ pending [cmd .gcd, cmd .gcd] with latency := [1] }).latency.headD 0 ∧
    ({ pending [cmd .gcd, cmd .gcd] with latency := [1] }).status.busy = false ∧
    ({ pending [cmd .gcd, cmd .gcd] with latency := [1] }).inReset = false ∧
    quietFor 1 (pending [rd 0x100, rd 0x100]) ∧ quietFor 1 { pending [cmd .gcd, cmd .gcd] with latency := [1] } :=
  ⟨rfl, rfl, rfl, rfl, by decide, rfl, by decide, rfl, rfl, quiet rfl _, quiet rfl _⟩

theorem witness_OperandWriteCommutesWithCompletion :
    ({ flying [wr 0x040 7] with delay := 1 }).status.busy = true ∧ ({ flying [wr 0x040 7] with delay := 1 }).inReset = false ∧
    ({ flying [wr 0x040 7] with delay := 1 }).host = .write 0x040 4 7#32 :: [] ∧ 0x040 ≠ 0x004 ∧
    quietFor 1 { flying [wr 0x040 7] with delay := 1 } :=
  ⟨rfl, rfl, rfl, by decide, quiet rfl _⟩

theorem witness_ApplyingReset :
    appliesReset (pulsed (flying [.wait])) ∧ appliesReset (pulsed (fly 1 2 10 1000)) ∧ appliesReset (pulsed (reported [])) :=
  ⟨⟨[], rfl⟩, ⟨[], rfl⟩, ⟨[], rfl⟩⟩

/-- MULMOD in flight and a polling loop pending, with reset applied after k polls and released at once. -/
def abortedWait (loop : HostMove) (k : Nat) : State :=
  { flying [loop, rd 0x100] with pinChanges := [{ after := k, level := true }, { after := 0, level := false }] }

/-- Both loops, at the bounds k = 0 and k = delay; the idle polls that follow; and the loop on DONE. -/
theorem witness_ResetDuringWait :
    (∀ k ∈ [0, 2], ∀ loop ∈ [HostMove.wait, .waitDone], Inv (abortedWait loop k) ∧
      (abortedWait loop k).status.busy = true ∧ (abortedWait loop k).inReset = false ∧
      (loop = .wait ∨ loop = .waitDone) ∧ (abortedWait loop k).host = loop :: [rd 0x100] ∧
      k ≤ (abortedWait loop k).delay ∧
      (abortedWait loop k).pinChanges =
        [{ after := k, level := (abortedWait loop k).params.resetActive },
         { after := 0, level := !(abortedWait loop k).params.resetActive }]) ∧
    (hostTurn (pending [.wait]) ∧ (pending [.wait]).inReset = false ∧ (pending [.wait]).status.busy = false) ∧
    ((pending [.waitDone]).pinChanges = [] ∧ (pending [.waitDone]).inReset = false ∧
      (pending [.waitDone]).status.busy = false ∧ (pending [.waitDone]).status.done = false ∧
      (pending [.waitDone]).host = .waitDone :: []) := by
  refine ⟨fun k hk loop hl => ⟨{ fly_inv 1 2 10 1000 with idle_no_delay := fun h => Bool.noConfusion h }, rfl, rfl, ?_, rfl,
    ?_, rfl⟩, ⟨⟨quiet rfl _, .inl rfl⟩, rfl, rfl⟩, rfl, rfl, rfl, rfl, rfl⟩
  · simpa using hl
  · exact (by decide : ∀ k ∈ [0, 2], k ≤ 2) k hk

theorem witness_StepKeepsInv :
    ∃ t, Inv (flying [cmd .gcd]) ∧ step (flying [cmd .gcd]) = .next t :=
  ⟨_, { fly_inv 1 2 10 1000 with idle_no_delay := fun h => Bool.noConfusion h }, rfl⟩

/-- A state with a report standing: MULMOD of 2, 10, 1000 has completed. -/
theorem witness_StepKeepsReport :
    ∃ t, Inv (fly 1 2 10 1000) ∧ ReportIsOfLatchedCommand (fly 1 2 10 1000) ∧ step (fly 1 2 10 1000) = .next t ∧
      t.status.done = true := ⟨_, fly_inv .., fun h => Bool.noConfusion h, rfl, rfl⟩

/-- BUSY rises by an acceptance; it falls by a completion and by reset. -/
theorem witness_BusyRisesAndFalls :
    (∃ t, step (pending [cmd .gcd]) = .next t ∧ (pending [cmd .gcd]).status.busy = false ∧ t.status.busy = true) ∧
    (∃ t, step (fly 1 2 10 1000) = .next t ∧ (fly 1 2 10 1000).status.busy = true ∧ t.status.busy = false) ∧
    (∃ t, step (pulsed (flying [.wait])) = .next t ∧ (pulsed (flying [.wait])).status.busy = true ∧
      t.status.busy = false) := ⟨⟨_, rfl, rfl, rfl⟩, ⟨_, rfl, rfl, rfl⟩, ⟨_, rfl, rfl, rfl⟩⟩

theorem witness_ResChangesOnlyBySuccess :
    (∃ t, step (fly 1 2 10 1000) = .next t ∧ t.res ≠ (fly 1 2 10 1000).res) ∧
    (∃ t, step (pulsed (reported [])) = .next t ∧ t.res ≠ (pulsed (reported [])).res) :=
  ⟨⟨_, rfl, by decide⟩, ⟨_, rfl, by decide⟩⟩

/-- OVR is set by a dropped CMD write; it is cleared by an acceptance and by reset. -/
theorem witness_OvrSetAndCleared :
    (∃ t, step (flying [cmd .gcd]) = .next t ∧ (flying [cmd .gcd]).status.ovr = false ∧ t.status.ovr = true) ∧
    (∃ t, step (reported [cmd .gcd]) = .next t ∧ (reported [cmd .gcd]).status.ovr = true ∧ t.status.ovr = false) ∧
    (∃ t, step (pulsed (reported [])) = .next t ∧ (pulsed (reported [])).status.ovr = true ∧
      t.status.ovr = false) ∧
    (∃ t, step (fly 1 2 10 1000) = .next t ∧ completionDue (fly 1 2 10 1000)) :=
  ⟨⟨_, rfl, rfl, rfl⟩, ⟨_, rfl, rfl, rfl⟩, ⟨_, rfl, rfl, rfl⟩, ⟨_, rfl, quiet rfl _, rfl, rfl, rfl⟩⟩

theorem witness_LatchesChangeOnlyAtAcceptance :
    (∃ t, step (reported [cmd .gcd]) = .next t ∧ t.lcmd ≠ (reported [cmd .gcd]).lcmd) ∧
    (∃ t, step (pulsed (reported [])) = .next t ∧ t.la ≠ (pulsed (reported [])).la) ∧
    (∃ t, step (reported [wr 0x040 7]) = .next t) := ⟨⟨_, rfl, by decide⟩, ⟨_, rfl, by decide⟩, ⟨_, rfl⟩⟩

theorem witness_OperandsChangeOnlyByHost :
    (∃ t, step (reported [wr 0x040 7]) = .next t ∧ t.opa ≠ (reported [wr 0x040 7]).opa) ∧
    (∃ t, step (reported [wr 0x084 7]) = .next t ∧ t.opb ≠ (reported [wr 0x084 7]).opb) ∧
    (∃ t, step (pulsed (reported [])) = .next t ∧ t.opm ≠ (pulsed (reported [])).opm) :=
  ⟨⟨_, rfl, by decide⟩, ⟨_, rfl, by decide⟩, ⟨_, rfl, by decide⟩⟩

theorem witness_ReportStandsWhileDone :
    ∃ t, Inv (reported [wr 0x040 7]) ∧ (reported [wr 0x040 7]).status.done = true ∧
      step (reported [wr 0x040 7]) = .next t ∧ t.status.done = true := ⟨_, reported_inv _, rfl, rfl, rfl⟩

theorem witness_IdleKeepsRegisters :
    (reported []).status.busy = false ∧ quietFor 0 (reported []) ∧ (reported []).host = [] := ⟨rfl, quiet rfl _, rfl⟩

theorem witness_StepKeepsParameters : ∃ t, step (pulsed (flying [.wait])) = .next t := ⟨_, rfl⟩

theorem witness_PowmodMulmodLaws :
    1 < regValue (fly 2 5 0 7).lm ∧ regValue (fly 2 5 0 7).lb = 0 ∧
    regValue (fly 2 5 1 1).lm ≠ 0 ∧ regValue (fly 2 5 1 1).lb = 1 := by decide

theorem witness_GcdLaws :
    regValue (fly 3 48 0 0).lb = 0 ∧ regValue (fly 3 0 0 0).la = 0 ∧ regValue (fly 3 0 0 0).lb = 0 ∧
    0 < regValue (fly 3 48 18 0).lb ∧ (fly 3 18 12 0).params = (fly 3 48 18 0).params ∧
    regValue (fly 3 18 12 0).la = regValue (fly 3 48 18 0).lb ∧
    regValue (fly 3 18 12 0).lb = regValue (fly 3 48 18 0).la % regValue (fly 3 48 18 0).lb := by decide

/-- Both clauses, at their boundaries m = 1 and m = 2. -/
theorem witness_ModinvResult :
    (regValue (fly 4 1 0 1).lm ≤ 1 ∨ Nat.gcd (regValue (fly 4 1 0 1).la) (regValue (fly 4 1 0 1).lm) ≠ 1) ∧
    (regValue (fly 4 2 0 4).lm ≤ 1 ∨ Nat.gcd (regValue (fly 4 2 0 4).la) (regValue (fly 4 2 0 4).lm) ≠ 1) ∧
    1 < regValue (fly 4 1 0 2).lm ∧ Nat.gcd (regValue (fly 4 1 0 2).la) (regValue (fly 4 1 0 2).lm) = 1 := by
  decide +kernel

/-- 9 is rejected by the witness 2: 8 = 1 * 2^3, and 2, 4, 16 leave 2, 4, 7. -/
theorem nine_rejected_by_two : RoundRejects 2 9 := ⟨by decide, 1, 3, by decide, by decide, by decide, by decide⟩

/-- 3 is not rejected by the witness 2, which is 3 - 1. -/
theorem three_passes_two : ¬ RoundRejects 2 3 := by
  rintro ⟨-, d, k, hd, hk, h1, h⟩
  have hd2 : d ≤ d * 2 ^ k := Nat.le_mul_of_pos_right d (Nat.two_pow_pos k)
  have h1' : d = 1 := by omega
  subst h1'
  cases k with
  | zero => omega
  | succ k => exact h 0 (by omega) (by decide)

/-- All four clauses, at the boundaries n = 2, n = 3, a = n and a = n - 1. -/
theorem witness_MrwitResult :
    (regValue (fly 5 1 0 2).lm < 3 ∨ regValue (fly 5 1 0 2).lm % 2 = 0) ∧
    (3 ≤ regValue (fly 5 3 0 3).lm ∧ regValue (fly 5 3 0 3).lm % 2 = 1 ∧ regValue (fly 5 3 0 3).lm ≤ regValue (fly 5 3 0 3).la) ∧
    (3 ≤ regValue (fly 5 2 0 9).lm ∧ regValue (fly 5 2 0 9).lm % 2 = 1 ∧ regValue (fly 5 2 0 9).la < regValue (fly 5 2 0 9).lm ∧
      RoundRejects (regValue (fly 5 2 0 9).la) (regValue (fly 5 2 0 9).lm)) ∧
    (3 ≤ regValue (fly 5 2 0 3).lm ∧ regValue (fly 5 2 0 3).lm % 2 = 1 ∧ regValue (fly 5 2 0 3).la < regValue (fly 5 2 0 3).lm ∧
      ¬ RoundRejects (regValue (fly 5 2 0 3).la) (regValue (fly 5 2 0 3).lm)) :=
  ⟨by decide, by decide, ⟨by decide, by decide, by decide, nine_rejected_by_two⟩,
    by decide, by decide, by decide, three_passes_two⟩

theorem witness_EveryCommandCompletesWithFrame : State.reset.params.wf = true ∧ ¬(0x008 ≤ 0x00C ∧ 0x00C < 0x00C) ∧
    ¬(0x100 ≤ 0x108 ∧ 0x108 < 0x100 + 4 * State.reset.params.NW) := by decide

theorem witness_IgnoredOperands :
    (∃ t, exec .gcd (fly 3 48 18 0) = .next t) ∧ (∃ t, exec .modinv (fly 4 3 0 11) = .next t) ∧
    (∃ t, exec .mrwit (fly 5 2 0 561) = .next t) ∧ (∃ t, exec .isprime (fly 6 0 0 7) = .next t) :=
  ⟨⟨_, rfl⟩, ⟨_, rfl⟩, ⟨_, rfl⟩, ⟨_, rfl⟩⟩

/-- Two states that agree on the latches and differ in RES, OVR and the operands. -/
theorem witness_OutcomeDependsOnLatchesOnly :
    (reported []).params = (fly 8 1 2 3).params ∧ (reported []).la = (fly 8 1 2 3).la ∧
    (reported []).lb = (fly 8 1 2 3).lb ∧ (reported []).lm = (fly 8 1 2 3).lm ∧ (reported []).res ≠ (fly 8 1 2 3).res :=
  ⟨rfl, rfl, rfl, rfl, by decide⟩

theorem witness_ErrorPriority :
    completionDue (fly 0x109 256 3 0) ∧
    (∀ i, decode (fly 0x109 256 3 0).lcmd ≠ .command i) ∧
    regValue (fly 7 256 3 0).lm = 0 ∧ 255 < regValue (fly 7 256 3 0).la :=
  ⟨⟨quiet rfl _, rfl, rfl, rfl⟩, fun i => by cases i <;> decide, by decide, by decide⟩

theorem witness_VerdictFlags : State.reset.params.wf = true := by decide

theorem witness_WitnessOrderIrrelevant : [61, 7, 2].Perm State.reset.params.witnesses := by decide

theorem witness_EarlyRoundEndSameOutcome : 3 ≤ 561 := by decide

theorem witness_MrwitNeverRejectsPrime :
    (fly 5 2 0 7).params.wf = true ∧ Nat.Prime (regValue (fly 5 2 0 7).lm) ∧ regValue (fly 5 2 0 7).lm ≠ 2 ∧
    regValue (fly 5 2 0 7).la ≠ 0 :=
  ⟨(fly_inv ..).params_wf, (by norm_num : Nat.Prime 7), by decide, by decide⟩

theorem witness_IsprimeAcceptsEveryPrime :
    0 ∉ (fly 6 0 0 7919).params.witnesses ∧ Nat.Prime (regValue (fly 6 0 0 7919).lm) :=
  ⟨by decide, (by norm_num : Nat.Prime 7919)⟩

theorem witness_IsprimeIsNoOracle :
    (fly 6 0 0 4759123141).params.witnesses = [2, 7, 61] ∧ regValue (fly 6 0 0 4759123141).lm = 4759123141 :=
  ⟨rfl, by decide⟩

theorem witness_IsprimeReferenceTable :
    (fly 6 0 0 97).params.witnesses = [2, 7, 61] ∧ regValue (fly 6 0 0 97).lm ∈ [2, 3, 97, 7919, 104729] ∧
    regValue (fly 6 0 0 1).lm ∈ [1, 4, 100, 9973 * 2] := ⟨rfl, by decide, by decide⟩

/-- The key pair of 95_test_vectors.md, P2. -/
theorem witness_RsaRoundTrip :
    Inv (fly 7 72 65537 1022117) ∧ Nat.Prime 1009 ∧ Nat.Prime 1013 ∧ 1009 ≠ 1013 ∧ 255 < 1009 * 1013 ∧
    65537 * 832193 % ((1009 - 1) * (1013 - 1)) = 1 ∧ 72 ≤ 255 ∧
    regValue (fly 7 72 65537 1022117).la = 72 ∧ regValue (fly 7 72 65537 1022117).lb = 65537 ∧
    regValue (fly 7 72 65537 1022117).lm = 1009 * 1013 ∧
    (∃ t, exec .encrypt (fly 7 72 65537 1022117) = .next t ∧ (fly 8 92944 832193 1022117).la = t.res) ∧
    regValue (fly 8 92944 832193 1022117).lb = 832193 ∧ regValue (fly 8 92944 832193 1022117).lm = 1009 * 1013 :=
  ⟨fly_inv .., by norm_num, by norm_num, by decide, by decide, by decide, by decide, by decide, by decide, by decide,
    ⟨_, rfl, by decide +kernel⟩, by decide, by decide⟩

theorem witness_LdopLoadsOperand (r : RegName) :
    Inv (pending (ldop Params.default r 0xFFFFFFFFFFFFFFFF ++ [rd 0x044])) ∧
    (pending (ldop Params.default r 0xFFFFFFFFFFFFFFFF ++ [rd 0x044])).status.busy = false ∧
    (pending (ldop Params.default r 0xFFFFFFFFFFFFFFFF ++ [rd 0x044])).inReset = false ∧
    quietFor Params.default.NW (pending (ldop Params.default r 0xFFFFFFFFFFFFFFFF ++ [rd 0x044])) ∧
    0xFFFFFFFFFFFFFFFF < 2 ^ State.reset.params.W := ⟨pending_inv _, rfl, rfl, quiet rfl _, by decide⟩

theorem witness_RunScriptEndToEnd :
    Inv (pending (runScript Params.default .mulmod 2 10 1000)) ∧
    (pending (runScript Params.default .mulmod 2 10 1000)).status.busy = false ∧
    (pending (runScript Params.default .mulmod 2 10 1000)).inReset = false ∧
    (pending (runScript Params.default .mulmod 2 10 1000)).pinChanges = [] ∧ 1000 < 2 ^ State.reset.params.W ∧
    execReference Params.default (encode .mulmod) 2 10 1000 = .ok 20 false false ∧
    execReference Params.default (encode .mulmod) 2 10 0 = .err .modzero :=
  ⟨pending_inv _, rfl, rfl, rfl, by decide, by decide, by decide⟩

end Sys2Proof.Tests
end

/-! Proofs of the statements of 10_state.md: the completion step, BUSY, OVR, and what a write of CMD does. -/

namespace Sys2Proof.Machine

open Sys2Proof.Claim

/-! ### Whose turn it is, in the words of the statements -/

theorem quietFor_zero_iff {s : State} : quietFor 0 s ↔ s.dueChange = none := dueChange_eq_none.symm

theorem completionDue_iff {s : State} : completionDue s ↔ s.turn = .engine := by
  rw [turn_eq_engine, ← quietFor_zero_iff, completionDue]

theorem appliesReset_iff {s : State} : appliesReset s ↔ s.turn = .reset s.params.resetActive := by
  rw [turn_eq_reset, dueChange_eq_some, appliesReset]

theorem turn_of_hostTurn {s : State} (h : hostTurn s) : s.turn = .host := by
  obtain ⟨quiet, idle⟩ := h
  refine turn_eq_host.2 ⟨quietFor_zero_iff.1 quiet, ?_⟩
  rintro ⟨busy, -, due⟩
  rcases idle with idle | left
  · rw [idle] at busy; cases busy
  · omega

/-- Only a completion held up by reset separates the model's turn from `hostTurn`. -/
theorem hostTurn_iff {s : State} (hr : s.inReset = false) : hostTurn s ↔ s.turn = .host := by
  refine ⟨turn_of_hostTurn, fun turn => ?_⟩
  obtain ⟨quiet, idle⟩ := turn_eq_host.1 turn
  refine ⟨quietFor_zero_iff.2 quiet, ?_⟩
  cases busy : s.status.busy with
  | false => exact .inl rfl
  | true => exact .inr (Nat.pos_of_ne_zero fun due => idle ⟨busy, hr, due⟩)

/-! ### A host step that writes CMD, and one that does not -/

theorem step_writesCmd {s : State} {v : BusWord} (turn : s.turn = .host) (hr : s.inReset = false) (w : writesCmd s v) :
    step s = .next (((s.elapse.withHost s.host.tail).writeCmd v).respond .ok) := by
  obtain ⟨rest, hm⟩ := w
  rw [step_write turn hr hm, busWrite_cmd, hm, List.tail_cons]
  rfl

/-- R37: the write is dropped while a command is in flight. -/
theorem step_dropsCommand {s : State} {v : BusWord} (turn : s.turn = .host) (hr : s.inReset = false)
    (w : writesCmd s v) (busy : s.status.busy = true) :
    step s = .next ((s.elapse.withHost s.host.tail).dropCommand.respond .ok) := by
  rw [step_writesCmd turn hr w, State.writeCmd, if_pos (by simp [busy])]

/-- R36, R39: the write is accepted, and the command's LATENCY drawn, by an idle machine. -/
theorem step_acceptsCommand {s : State} {v : BusWord} (turn : s.turn = .host) (hr : s.inReset = false)
    (w : writesCmd s v) (idle : s.status.busy = false) :
    step s = .next (((s.elapse.withHost s.host.tail).accept v).drawLatency.respond .ok) := by
  rw [step_writesCmd turn hr w, State.writeCmd, if_neg (by simp [idle])]

/-- R242: a step that is the host's and answers a state performs its move outside reset. -/
theorem inReset_of_writesCmd {s t : State} {v : BusWord} (h : step s = .next t) (turn : s.turn = .host)
    (w : writesCmd s v) : s.inReset = false := by
  obtain ⟨rest, hm⟩ := w
  cases hr : s.inReset with
  | false => rfl
  | true => rw [step_in_reset turn hr hm] at h; cases h

theorem hostTurn_and_writesCmd_iff {s t : State} (h : step s = .next t) :
    (hostTurn s ∧ ∃ v, writesCmd s v) ↔ s.turn = .host ∧ ∃ v, writesCmd s v :=
  ⟨fun ⟨turn, w⟩ => ⟨turn_of_hostTurn turn, w⟩,
    fun ⟨turn, v, w⟩ => ⟨(hostTurn_iff (inReset_of_writesCmd h turn w)).2 turn, v, w⟩⟩

/-- A bus write that is no legal write of CMD leaves STATUS. -/
theorem busWrite_status {s : State} {off n : Nat} (v : BitVec (8 * n)) (h : ¬(n = 4 ∧ off = 4)) :
    (s.busWrite off n v).status = s.status := by
  rcases busWrite_cases s off n v with e | ⟨r, k, -, -, -, -, e⟩ | ⟨hn, ho, -⟩
  · rw [e]
  · rw [e, State.setReg_status]
  · exact absurd ⟨hn, ho⟩ h

/-- A step of the host that does not write CMD leaves STATUS. -/
theorem hostStep_status_of_no_writesCmd {s t : State} (h : hostStep s = .next t) (no : ∀ v, ¬ writesCmd s v) :
    t.status = s.status := by
  rcases hostStep_cases h with ⟨-, rfl⟩ | ⟨off, n, rest, -, -, rfl⟩ | ⟨off, n, v, rest, hm, -, rfl⟩ |
    ⟨rest, -, -, rfl⟩ | ⟨rest, -, -, rfl⟩
  · rfl
  · rfl
  · refine busWrite_status v ?_
    rintro ⟨rfl, rfl⟩
    exact no v ⟨rest, hm⟩
  · exact State.pollStep_status ..
  · exact State.pollStep_status ..

/-- Everything a step can do to STATUS (R28, R33): the active level of the reset input clears it, the completion reports
in it, a write of CMD is dropped or accepted, and any other step leaves it. -/
theorem step_status_cases {s t : State} (h : step s = .next t) :
    (s.turn = .reset s.params.resetActive ∧ t.status = {}) ∨
    (s.turn = .engine ∧ s.status.busy = true ∧ t.status = s.status.completed s.outcome) ∨
    (s.turn = .host ∧ (∃ v, writesCmd s v) ∧ s.status.busy = true ∧ t.status = s.status.dropped) ∨
    (s.turn = .host ∧ (∃ v, writesCmd s v) ∧ s.status.busy = false ∧ t.status = Status.accepted) ∨
    (s.turn ≠ .reset s.params.resetActive ∧ s.turn ≠ .engine ∧ ¬(s.turn = .host ∧ ∃ v, writesCmd s v) ∧
      t.status = s.status) := by
  rcases step_cases h with ⟨level, turn, rfl⟩ | ⟨turn, rfl⟩ | ⟨turn, hh⟩
  · rcases pinStep_cases s level with ⟨rfl, e⟩ | ⟨ne, e⟩
    · exact .inl ⟨turn, by rw [e]; rfl⟩
    · refine .inr (.inr (.inr (.inr ⟨?_, ?_, ?_, by rw [e]⟩))) <;> simp [turn, ne]
  · obtain ⟨-, busy, -⟩ := turn_eq_engine.1 turn
    exact .inr (.inl ⟨turn, busy, rfl⟩)
  · by_cases w : ∃ v, writesCmd s v
    · obtain ⟨v, wv⟩ := w
      have hr := inReset_of_writesCmd h turn wv
      cases busy : s.status.busy with
      | true =>
        rw [step_dropsCommand turn hr wv busy] at h
        cases h
        exact .inr (.inr (.inl ⟨turn, ⟨v, wv⟩, rfl, rfl⟩))
      | false =>
        rw [step_acceptsCommand turn hr wv busy] at h
        cases h
        exact .inr (.inr (.inr (.inl ⟨turn, ⟨v, wv⟩, rfl, rfl⟩)))
    · refine .inr (.inr (.inr (.inr ⟨?_, ?_, fun hw => w hw.2, ?_⟩)))
      · simp [turn]
      · simp [turn]
      · exact hostStep_status_of_no_writesCmd (s := s.elapse) hh fun v wv => w ⟨v, wv⟩

/-! ### The completion step -/

theorem complete_ok (s : State) (r : Nat) (p ni : Bool) : s.complete (.ok r p ni) = completedOk s r p ni := rfl

theorem complete_err (s : State) (c : ErrCode) : s.complete (.err c) = completedErr s c := rfl

/-- R40's last sentence, of the outcome of a state's own latches. -/
theorem outcome_lt {s : State} (inv : Inv s) {r : Nat} {p ni : Bool} (h : s.outcome = .ok r p ni) :
    r < 2 ^ s.params.W :=
  execReference_lt inv.params_wf (fitsWidth_value inv.params_wf inv.la_fits) (fitsWidth_value inv.params_wf inv.lb_fits)
    (fitsWidth_value inv.params_wf inv.lm_fits) h

/-- Settles O7: the engine's step completes with the reference outcome, which stays below 2^W. -/
theorem completionIsExecOfTheLatches : Obligations.CompletionIsExecOfTheLatches := by
  unfold Obligations.CompletionIsExecOfTheLatches
  refine ⟨fun s due => ?_, fun s r p ni inv h => ?_⟩
  · rw [step_engine (completionDue_iff.1 due), State.outcome, State.opA, State.opB, State.opM]
    cases execReference s.params s.lcmd (regValue s.la) (regValue s.lb) (regValue s.lm) with
    | ok r p ni => rw [complete_ok]
    | err c => rw [complete_err]
  · have lt := outcome_lt inv h
    exact ⟨lt, regOfNat_length .., regValue_store inv.params_wf lt⟩

/-! ### BUSY and OVR -/

/-- Settles O28, by the cases of what a step does to STATUS. -/
theorem busyRisesAndFalls : Obligations.BusyRisesAndFalls := by
  unfold Obligations.BusyRisesAndFalls
  intro s t h
  rw [hostTurn_and_writesCmd_iff h, completionDue_iff, appliesReset_iff]
  rcases step_status_cases h with ⟨turn, e⟩ | ⟨turn, busy, e⟩ | ⟨turn, w, busy, e⟩ | ⟨turn, w, idle, e⟩ |
    ⟨no_reset, no_completion, no_write, e⟩
  · simp [turn, e]
  · simp [turn, busy, e]
  · simp [turn, busy, e]
  · simp [turn, w, idle, e]
  · simp +contextual [no_reset, no_completion, no_write, e]

/-- Settles O30, by the same cases; of a write of CMD, BUSY says whether it is the dropped or the accepted one. -/
theorem ovrSetAndCleared : Obligations.OvrSetAndCleared := by
  unfold Obligations.OvrSetAndCleared
  intro s t h
  have swap : ∀ b : Bool, (hostTurn s ∧ s.status.busy = b ∧ ∃ v, writesCmd s v) ↔
      s.status.busy = b ∧ s.turn = .host ∧ ∃ v, writesCmd s v :=
    fun b => and_left_comm.trans (and_congr_right' (hostTurn_and_writesCmd_iff h))
  rw [swap, swap, completionDue_iff, appliesReset_iff]
  rcases step_status_cases h with ⟨turn, e⟩ | ⟨turn, busy, e⟩ | ⟨turn, w, busy, e⟩ | ⟨turn, w, idle, e⟩ |
    ⟨no_reset, no_completion, no_write, e⟩
  · simp [turn, e]
  · simp +contextual [turn, e]
  · simp [turn, w, busy, e]
  · simp [turn, w, idle, e]
  · simp +contextual [no_reset, no_completion, no_write, e]

/-! ### A write of CMD -/

/-- R36: `STATUS <- 0x0000_0001`. -/
theorem Status.accepted_word : Status.accepted.word = 0x00000001#32 := by decide

/-- Settles O11: the step that accepts the word gives every field. -/
theorem acceptanceLatches : Obligations.AcceptanceLatches := by
  unfold Obligations.AcceptanceLatches
  intro s v idle hr quiet w
  have turn : s.turn = .host := turn_of_hostTurn ⟨quiet, .inl idle⟩
  refine ⟨⟨_, step_acceptsCommand turn hr w idle, ?_, rfl, rfl⟩, Status.accepted_word⟩
  simp [sameRegisters, acceptedRegisters, Status.accepted]

/-- Settles O12: the step that drops the word gives every field. -/
theorem commandWhileBusyIsDropped : Obligations.CommandWhileBusyIsDropped := by
  unfold Obligations.CommandWhileBusyIsDropped
  intro s v busy turn hr w
  refine ⟨_, step_dropsCommand (turn_of_hostTurn turn) hr w busy, ?_, rfl, rfl⟩
  simp [sameRegisters, Status.dropped]

end Sys2Proof.Machine

/-! Proofs of the statements of 20_memory.md: what a transaction answers, and which ones change nothing. -/

namespace Sys2Proof.Machine

open Sys2Proof.Claim

/-! ### Legal and illegal accesses -/

theorem legalAccess_iff {off n : Nat} : legalAccess off n ↔ busAccessOK off n = true := (busAccessOK_iff off n).symm

theorem busRead_legal {off n : Nat} (h : legalAccess off n) (s : State) : s.busRead off n = .data (s.readWord off) :=
  if_pos (legalAccess_iff.1 h)

theorem busRead_illegal {off n : Nat} (h : ¬ legalAccess off n) (s : State) : s.busRead off n = .busError :=
  if_neg (mt legalAccess_iff.2 h)

theorem busWriteResponse_legal {off n : Nat} (h : legalAccess off n) : busWriteResponse off n = .ok :=
  if_pos (legalAccess_iff.1 h)

theorem busWriteResponse_illegal {off n : Nat} (h : ¬ legalAccess off n) : busWriteResponse off n = .busError :=
  if_neg (mt legalAccess_iff.2 h)

theorem busWrite_illegal {off n : Nat} (h : ¬ legalAccess off n) (s : State) (v : BitVec (8 * n)) :
    s.busWrite off n v = s :=
  if_neg (mt legalAccess_iff.2 h)

/-! ### The words of the window in the vocabulary of the statements -/

theorem isOperandWord_of_slot {p : Params} {r : RegName} {k : Nat} (hr : r ≠ .res) (hk : k < p.NW) :
    isOperandWord p (r.slot + 4 * k) := by
  refine ⟨k, hk, ?_⟩
  cases r with
  | opa => exact .inl rfl
  | opb => exact .inr (.inl rfl)
  | opm => exact .inr (.inr rfl)
  | res => exact absurd rfl hr

/-- R56: the read-only registers stand at legal offsets that are none of the writable ones. -/
theorem readOnly_place {p : Params} (wf : p.wf = true) {off : Nat} (h : off = 0x000 ∨ off = 0x008 ∨ isResultWord p off) :
    legalAccess off 4 ∧ off ≠ 0x004 ∧ ¬ isOperandWord p off := by
  have words := NW_le wf
  have place : off = 0x000 ∨ off = 0x008 ∨ (0x100 ≤ off ∧ off < 0x140 ∧ off % 4 = 0) := by
    rcases h with rfl | rfl | ⟨k, hk, rfl⟩ <;> omega
  refine ⟨⟨rfl, by omega, by omega⟩, by omega, ?_⟩
  rintro ⟨j, hj, at_word⟩
  omega

/-- R56, R57: only CMD and the operand words take writes. -/
theorem busWrite_eq_self {s : State} {off n : Nat} (v : BitVec (8 * n)) (not_cmd : off ≠ 0x004)
    (not_operand : ¬ isOperandWord s.params off) : s.busWrite off n v = s := by
  rcases busWrite_cases s off n v with same | ⟨r, k, hr, hk, -, rfl, -⟩ | ⟨-, is_cmd, -⟩
  · exact same
  · exact absurd (isOperandWord_of_slot hr hk) not_operand
  · exact absurd is_cmd not_cmd

/-- R57: what stands at a legal offset that is none of the registers' words. -/
theorem slotAt_eq_reserved {p : Params} {off : Nat} (legal : legalAccess off 4) (not_id : off ≠ 0x000)
    (not_cmd : off ≠ 0x004) (not_status : off ≠ 0x008) (not_operand : ¬ isOperandWord p off)
    (not_result : ¬ isResultWord p off) : slotAt p off = .reserved := by
  obtain ⟨-, aligned, -⟩ := legal
  rcases slotAt_cases (p := p) aligned with ⟨e, -⟩ | ⟨e, -⟩ | ⟨e, -⟩ | ⟨r, k, hk, rfl, -⟩ | ⟨-, -, -, reserved⟩
  · exact absurd e not_id
  · exact absurd e not_cmd
  · exact absurd e not_status
  · by_cases hr : r = .res
    · subst hr
      exact absurd ⟨k, hk, rfl⟩ not_result
    · exact absurd (isOperandWord_of_slot hr hk) not_operand
  · exact reserved

theorem readWord_reserved {s : State} {off : Nat} (h : slotAt s.params off = .reserved) : s.readWord off = 0 := by
  rw [State.readWord, h]

/-! ### The step that performs a transaction -/

@[simp] theorem busWrite_host (s : State) (off n : Nat) (v : BitVec (8 * n)) : (s.busWrite off n v).host = s.host := by
  rcases busWrite_cases s off n v with e | ⟨r, k, -, -, -, -, e⟩ | ⟨-, -, e⟩ <;> rw [e]
  · exact State.setReg_host ..
  · rcases writeCmd_cases s (v.setWidth 32) with ⟨-, e⟩ | ⟨-, e⟩ <;> rw [e] <;> rfl

@[simp] theorem busWrite_responses (s : State) (off n : Nat) (v : BitVec (8 * n)) :
    (s.busWrite off n v).responses = s.responses := by
  rcases busWrite_cases s off n v with e | ⟨r, k, -, -, -, -, e⟩ | ⟨-, -, e⟩ <;> rw [e]
  · exact State.setReg_responses ..
  · rcases writeCmd_cases s (v.setWidth 32) with ⟨-, e⟩ | ⟨-, e⟩ <;> rw [e] <;> rfl

/-- The passing of time and the host's list have no part in what a write does to the registers. -/
theorem busWrite_sameRegisters (s : State) (rest : List HostMove) (off n : Nat) (v : BitVec (8 * n)) :
    sameRegisters (s.busWrite off n v) ((s.elapse.withHost rest).busWrite off n v) := by
  have same : sameRegisters s (s.elapse.withHost rest) := by simp [sameRegisters]
  unfold State.busWrite
  split
  · unfold State.writeWord
    rw [State.withHost_params, State.elapse_params]
    cases slotAt s.params off with
    | id => exact same
    | status => exact same
    | reserved => exact same
    | cmd =>
      unfold State.writeCmd
      rw [State.withHost_status, State.elapse_status]
      cases s.status.busy <;> simp [sameRegisters]
    | reg r k => cases r <;> simp [sameRegisters, State.setReg, State.reg]
  · exact same

section
variable {s : State} (turn : hostTurn s) (hr : s.inReset = false)
include turn hr

/-- R51, R58: a read changes no register. -/
theorem performs_read {off n : Nat} {rest : List HostMove} (hm : s.host = .read off n :: rest) :
    performs s s (s.busRead off n) := by
  refine ⟨_, step_read (turn_of_hostTurn turn) hr hm, ?_, ?_, ?_⟩
  · simp [sameRegisters]
  · simp [hm]
  · simp [State.busRead]

/-- R51: a write does to the registers what `busWrite` says. -/
theorem performs_write {off n : Nat} {v : BitVec (8 * n)} {rest : List HostMove}
    (hm : s.host = .write off n v :: rest) : performs s (s.busWrite off n v) (busWriteResponse off n) := by
  refine ⟨_, step_write (turn_of_hostTurn turn) hr hm, ?_, ?_, ?_⟩
  · exact busWrite_sameRegisters s rest off n v
  · simp [hm]
  · simp

/-- R56, R57: a legal write to a place that takes no writes is answered all the same. -/
theorem performs_ignored_write {off : Nat} {v : BusWord} {rest : List HostMove} (hm : s.host = .write off 4 v :: rest)
    (legal : legalAccess off 4) (not_cmd : off ≠ 0x004) (not_operand : ¬ isOperandWord s.params off) :
    performs s s .ok := by
  have h := performs_write turn hr hm
  rwa [busWrite_eq_self (n := 4) v not_cmd not_operand, busWriteResponse_legal legal] at h

end

/-! ### The statements -/

/-- Settles O15: the read-only registers stand where a write is ignored. -/
theorem readOnlyWritesIgnored : Obligations.ReadOnlyWritesIgnored := by
  unfold Obligations.ReadOnlyWritesIgnored
  intro s off v rest wf turn hr hm read_only
  obtain ⟨legal, not_cmd, not_operand⟩ := readOnly_place wf read_only
  exact performs_ignored_write turn hr hm legal not_cmd not_operand

/-- Settles O16: such an offset is a reserved slot, which reads 0, and a write there is ignored. -/
theorem reservedOffsets : Obligations.ReservedOffsets := by
  unfold Obligations.ReservedOffsets
  intro s off rest _ turn hr legal not_id not_cmd not_status not_operand not_result
  refine ⟨fun hm => ?_, fun v hm => performs_ignored_write turn hr hm legal not_cmd not_operand⟩
  have reserved := slotAt_eq_reserved legal not_id not_cmd not_status not_operand not_result
  have h := performs_read turn hr hm
  rwa [busRead_legal legal, readWord_reserved reserved] at h

/-- Settles O17: an access that fails `BusAccessOK` is answered with BusError and has no effect. -/
theorem illegalAccessIsBusError : Obligations.IllegalAccessIsBusError := by
  unfold Obligations.IllegalAccessIsBusError
  intro s off n rest turn hr illegal
  refine ⟨fun hm => ?_, fun v hm => ?_⟩
  · have h := performs_read turn hr hm
    rwa [busRead_illegal illegal] at h
  · have h := performs_write turn hr hm
    rwa [busWrite_illegal illegal, busWriteResponse_illegal illegal] at h

end Sys2Proof.Machine

/-! Proofs of the statements of 40_modmul_powmod.md: what MULMOD and POWMOD answer. -/

namespace Sys2Proof.Machine

open Sys2Proof.Claim

/-! ### Each command's completion, for the modulus 0 and for every other one -/

section
variable {s : State}

/-- R101: no product is reduced modulo 0. -/
theorem exec_mulmod_of_modulus_zero (hm : regValue s.lm = 0) : exec .mulmod s = .next (completedErr s .modzero) := by
  have err : mulmodF s.opA s.opB s.opM = .err .modzero := if_pos hm
  rw [exec, execMulmod, err, complete_err]

/-- R100, R101: the product is exact before the reduction. -/
theorem exec_mulmod_of_modulus_ne_zero (hm : regValue s.lm ≠ 0) :
    exec .mulmod s = .next (completedOk s (regValue s.la * regValue s.lb % regValue s.lm) false false) := by
  have ok : mulmodF s.opA s.opB s.opM = .ok (regValue s.la * regValue s.lb % regValue s.lm) false false := if_neg hm
  rw [exec, execMulmod, ok, complete_ok]

/-- R104: no power is reduced modulo 0. -/
theorem exec_powmod_of_modulus_zero (hm : regValue s.lm = 0) : exec .powmod s = .next (completedErr s .modzero) := by
  have err : powmodF s.opA s.opB s.opM = .err .modzero := if_pos hm
  rw [exec, execPowmod, err, complete_err]

/-- R103, R104: square-and-multiply computes the power itself, reduced. -/
theorem exec_powmod_of_modulus_ne_zero (hm : regValue s.lm ≠ 0) :
    exec .powmod s = .next (completedOk s (regValue s.la ^ regValue s.lb % regValue s.lm) false false) := by
  have ok : powmodF s.opA s.opB s.opM = .ok (powMod s.opA s.opB s.opM) false false := if_neg hm
  have power : powMod s.opA s.opB s.opM = regValue s.la ^ regValue s.lb % regValue s.lm :=
    powMod_eq _ _ (Nat.pos_of_ne_zero hm)
  rw [exec, execPowmod, ok, complete_ok, power]

end

/-! ### The statements -/

/-- Settles O37: the modulus is 0, or the loop has computed the power modulo LM. -/
theorem powmodResult : Obligations.PowmodResult := by
  unfold Obligations.PowmodResult
  refine ⟨decode_encode .powmod, fun s => ?_⟩
  split
  next hm => exact exec_powmod_of_modulus_zero hm
  next hm => exact exec_powmod_of_modulus_ne_zero hm

/-- Settles O38: the powers 0 and 1 of POWMOD's result, and MULMOD's result as it stands. -/
theorem powmodMulmodLaws : Obligations.PowmodMulmodLaws := by
  unfold Obligations.PowmodMulmodLaws
  refine fun s => ⟨fun hm hb => ?_, fun hm hb => ?_, exec_mulmod_of_modulus_ne_zero⟩
  · rw [exec_powmod_of_modulus_ne_zero (Nat.ne_zero_of_lt hm), hb, pow_zero, Nat.mod_eq_of_lt hm]
  · rw [exec_powmod_of_modulus_ne_zero hm, hb, pow_one]

/-- Settles O36: the modulus is 0, or the exact product is reduced modulo LM. -/
theorem mulmodResult : Obligations.MulmodResult := by
  unfold Obligations.MulmodResult
  refine ⟨decode_encode .mulmod, fun s => ?_⟩
  split
  next hm => exact exec_mulmod_of_modulus_zero hm
  next hm => exact exec_mulmod_of_modulus_ne_zero hm

end Sys2Proof.Machine

/-! Proofs of the statements of 41_gcd_modinv.md: what GCD and MODINV answer. -/

namespace Sys2Proof.Machine

open Sys2Proof.Claim

/-! ### Each command's completion -/

/-- R121: GCD has one outcome, whatever the operands, and does not look at LM. -/
theorem exec_gcd (s : State) :
    exec .gcd s = .next (completedOk s (Nat.gcd (regValue s.la) (regValue s.lb)) false false) := by
  rw [exec, execGcd, gcdF, euclidGcd_eq, complete_ok, State.opA, State.opB]

/-- R126, of an operand without inverse. -/
theorem exec_modinv_of_none {s : State} (h : modInverse (regValue s.la) (regValue s.lm) = none) :
    exec .modinv s = .next (completedOk s 0 false true) := by
  rw [exec, execModinv, modinvF, State.opA, State.opM, h, complete_ok]

/-- R126, of an operand with an inverse. -/
theorem exec_modinv_of_some {s : State} {x : Nat} (h : modInverse (regValue s.la) (regValue s.lm) = some x) :
    exec .modinv s = .next (completedOk s x false false) := by
  rw [exec, execModinv, modinvF, State.opA, State.opM, h, complete_ok]

/-! ### The statements -/

/-- Settles O39: Euclid's loop has computed the greatest common divisor. -/
theorem gcdResult : Obligations.GcdResult := by
  unfold Obligations.GcdResult
  exact ⟨decode_encode .gcd, exec_gcd⟩

/-- Settles O40: the laws of `Nat.gcd`, carried over to GCD's result; the third is one round of Euclid's loop. -/
theorem gcdLaws : Obligations.GcdLaws := by
  unfold Obligations.GcdLaws
  refine ⟨fun s hb => ?_, fun s ha hb => ?_, fun s u _ params ha hb => ?_⟩
  · rw [exec_gcd, hb, Nat.gcd_zero_right]
  · rw [exec_gcd, ha, hb, Nat.gcd_zero_right]
  · have round : Nat.gcd (regValue u.la) (regValue u.lb) = Nat.gcd (regValue s.la) (regValue s.lb) := by
      rw [ha, hb, Nat.gcd_comm, ← Nat.gcd_rec, Nat.gcd_comm]
    refine ⟨_, _, exec_gcd s, exec_gcd u, ?_⟩
    rw [completedOk, completedOk, params, round]

/-- Settles O41: there is no inverse, or the extended loop has found one, which is the only one below LM. -/
theorem modinvResult : Obligations.ModinvResult := by
  unfold Obligations.ModinvResult
  refine ⟨decode_encode .modinv, fun s => ⟨fun no => exec_modinv_of_none (modInverse_none no), fun hm coprime => ?_⟩⟩
  obtain ⟨x, found, lt, inverse⟩ := modInverse_some hm coprime
  exact ⟨x, lt, inverse, fun y ylt yinverse => inverse_unique ylt lt yinverse inverse, exec_modinv_of_some found⟩

end Sys2Proof.Machine

/-! Proofs of the statements of 42_primality.md: what MRWIT and ISPRIME answer. -/

namespace Sys2Proof.Machine

open Sys2Proof.Claim

/-! ### The outcome left over by the two that `Laws/Primality` describes -/

/-- R140: a round that is run and does not reject passes. -/
theorem mrRound_eq_pass {a n : Nat} (odd : n % 2 = 1) (hn : 3 ≤ n) :
    mrRound a n = .pass ↔ a < n ∧ ¬ RoundRejects a n := by
  rw [← not_le, ← mrRound_eq_skipped, ← mrRound_eq_composite odd hn]
  cases mrRound a n <;> decide

/-! ### Each command's completion -/

section
variable {s : State}

/-- R142: no round is run for an even modulus or one below 3. -/
theorem exec_mrwit_of_badarg (bad : regValue s.lm < 3 ∨ regValue s.lm % 2 = 0) :
    exec .mrwit s = .next (completedErr s .badarg) := by
  have err : mrwitF s.opA s.opM = .err .badarg := if_pos bad
  rw [exec, execMrwit, err, complete_err]

/-- R142: the outcome of the round is the result, and every outcome but COMPOSITE sets PRIME. -/
theorem exec_mrwit_of_mrRound {o : RoundOutcome} (hn : 3 ≤ regValue s.lm) (odd : regValue s.lm % 2 = 1)
    (round : mrRound (regValue s.la) (regValue s.lm) = o) :
    exec .mrwit s = .next (completedOk s o.code (o != .composite) false) := by
  have ok : mrwitF s.opA s.opM = .ok o.code (o != .composite) false := by
    rw [mrwitF, State.opA, State.opM, if_neg (by omega), round]
  rw [exec, execMrwit, ok, complete_ok]

/-- R144: the verdict of the test is the result and PRIME. -/
theorem exec_isprime_of_isPrimeAlg {verdict : Bool}
    (test : isPrimeAlg s.params.witnesses (regValue s.lm) = verdict) :
    exec .isprime s = .next (completedOk s verdict.toNat verdict false) := by
  rw [exec, execIsprime, isprimeF, State.opM, test, complete_ok]

end

/-! ### The statements -/

/-- Settles O42: the operands are bad, or the round is skipped, rejects or passes. -/
theorem mrwitResult : Obligations.MrwitResult := by
  unfold Obligations.MrwitResult
  refine ⟨decode_encode .mrwit, fun s => ⟨exec_mrwit_of_badarg, fun hn odd => ⟨fun skipped => ?_, fun _ rejects => ?_,
    fun lt passes => ?_⟩⟩⟩
  · exact exec_mrwit_of_mrRound hn odd (mrRound_eq_skipped.2 skipped)
  · exact exec_mrwit_of_mrRound hn odd ((mrRound_eq_composite odd hn).2 rejects)
  · exact exec_mrwit_of_mrRound hn odd ((mrRound_eq_pass odd hn).2 ⟨lt, passes⟩)

/-- Settles O43: the verdict is the one of the witness loop, which accepts when no witness rejects. -/
theorem isprimeResult : Obligations.IsprimeResult := by
  unfold Obligations.IsprimeResult
  refine ⟨decode_encode .isprime, fun s => ⟨_, isPrimeAlg_eq_true, ?_⟩⟩
  rw [exec_isprime_of_isPrimeAlg rfl, Bool.toNat, Bool.cond_eq_ite]

/-- R147: the source's test on the primes of its own table. -/
theorem isPrimeAlg_referencePrimes : ∀ n ∈ [2, 3, 97, 7919, 104729], isPrimeAlg [2, 7, 61] n = true := by
  decide

/-- R147: the source's test on the other values of its own table. -/
theorem isPrimeAlg_referenceComposites : ∀ n ∈ [1, 4, 100, 9973 * 2], isPrimeAlg [2, 7, 61] n = false := by
  decide

/-- Settles O57: the test is evaluated on each value of the table, and the command reports its verdict. -/
theorem isprimeReferenceTable : Obligations.IsprimeReferenceTable := by
  unfold Obligations.IsprimeReferenceTable
  refine fun s hw => ⟨fun hm => ?_, fun hm => ?_⟩
  · exact exec_isprime_of_isPrimeAlg (by rw [hw]; exact isPrimeAlg_referencePrimes _ hm)
  · exact exec_isprime_of_isPrimeAlg (by rw [hw]; exact isPrimeAlg_referenceComposites _ hm)

end Sys2Proof.Machine

/-! Proofs of the statements of 43_cipher.md: what ENCRYPT and DECRYPT answer, and that the second undoes the first. -/

namespace Sys2Proof.Machine

open Sys2Proof.Claim

/-! ### Each command's completion -/

section
variable {s : State}

/-- R103: the power that both commands compute, of the latched operands. -/
theorem powMod_operands (hm : regValue s.lm ≠ 0) :
    powMod s.opA s.opB s.opM = regValue s.la ^ regValue s.lb % regValue s.lm :=
  powMod_eq _ _ (Nat.pos_of_ne_zero hm)

/-- R160, R204: the modulus is checked first, whatever the byte. -/
theorem exec_encrypt_of_modulus_zero (hm : regValue s.lm = 0) : exec .encrypt s = .next (completedErr s .modzero) := by
  have err : encryptF s.opA s.opB s.opM = .err .modzero := if_pos hm
  rw [exec, execEncrypt, err, complete_err]

/-- R160, R203: an operand above 255 is no byte. -/
theorem exec_encrypt_of_badarg (hm : regValue s.lm ≠ 0) (large : 255 < regValue s.la) :
    exec .encrypt s = .next (completedErr s .badarg) := by
  have err : encryptF s.opA s.opB s.opM = .err .badarg := (if_neg hm).trans (if_pos large)
  rw [exec, execEncrypt, err, complete_err]

/-- R160: the ciphertext of a byte is its power, reduced. -/
theorem exec_encrypt_of_byte (hm : regValue s.lm ≠ 0) (byte : regValue s.la ≤ 255) :
    exec .encrypt s = .next (completedOk s (regValue s.la ^ regValue s.lb % regValue s.lm) false false) := by
  have ok : encryptF s.opA s.opB s.opM = .ok (powMod s.opA s.opB s.opM) false false :=
    (if_neg hm).trans (if_neg (not_lt.2 byte))
  rw [exec, execEncrypt, ok, complete_ok, powMod_operands hm]

/-- R161: no power is reduced modulo 0. -/
theorem exec_decrypt_of_modulus_zero (hm : regValue s.lm = 0) : exec .decrypt s = .next (completedErr s .modzero) := by
  have err : decryptF s.opA s.opB s.opM = .err .modzero := if_pos hm
  rw [exec, execDecrypt, err, complete_err]

/-- R161: the plaintext is the low byte of the reduced power. -/
theorem exec_decrypt_of_modulus_ne_zero (hm : regValue s.lm ≠ 0) :
    exec .decrypt s = .next (completedOk s (regValue s.la ^ regValue s.lb % regValue s.lm % 256) false false) := by
  have ok : decryptF s.opA s.opB s.opM = .ok (powMod s.opA s.opB s.opM % 256) false false := if_neg hm
  rw [exec, execDecrypt, ok, complete_ok, powMod_operands hm]

end

/-! ### The arithmetic of a key pair -/

/-- Fermat's little theorem for an exponent that is 1 modulo p - 1; p may divide the base. -/
theorem pow_modEq_self_of_prime {p k : Nat} (hp : p.Prime) (hk : 1 ≤ k) (dvd : p - 1 ∣ k - 1) (b : Nat) :
    b ^ k ≡ b [MOD p] := by
  have h : (b : Int) ^ k ≡ (b : Int) ^ 1 [ZMOD p] := Int.ModEq.pow_eq_pow hp dvd hk one_pos b
  rw [pow_one] at h
  exact_mod_cast h

/-- The same modulo the product of two primes, by the Chinese remainder theorem. -/
theorem pow_modEq_self_of_primes {p q k : Nat} (hp : p.Prime) (hq : q.Prime) (hpq : p ≠ q)
    (key : k % ((p - 1) * (q - 1)) = 1) (b : Nat) : b ^ k ≡ b [MOD p * q] := by
  have dvd : (p - 1) * (q - 1) ∣ k - 1 := by
    have sub_mod := Nat.dvd_sub_mod (n := (p - 1) * (q - 1)) k
    rwa [key] at sub_mod
  have hk : 1 ≤ k := key ▸ Nat.mod_le k _
  exact (Nat.modEq_and_modEq_iff_modEq_mul ((Nat.coprime_primes hp hq).2 hpq)).1
    ⟨pow_modEq_self_of_prime hp hk (dvd_of_mul_right_dvd dvd) b,
      pow_modEq_self_of_prime hq hk (dvd_of_mul_left_dvd dvd) b⟩

/-- R162 without the machine: raising to e and then to d gives back every value below the modulus. -/
theorem keyPair_roundTrip {p q e d b : Nat} (hp : p.Prime) (hq : q.Prime) (hpq : p ≠ q)
    (key : e * d % ((p - 1) * (q - 1)) = 1) (hb : b < p * q) : (b ^ e % (p * q)) ^ d % (p * q) = b :=
  calc (b ^ e % (p * q)) ^ d % (p * q) = b ^ (e * d) % (p * q) := by rw [← Nat.pow_mod, pow_mul]
    _ = b % (p * q) := pow_modEq_self_of_primes hp hq hpq key b
    _ = b := Nat.mod_eq_of_lt hb

/-! ### The statements -/

/-- Settles O44: the modulus is 0, or the operand is no byte, or the loop has computed the power modulo LM. -/
theorem encryptResult : Obligations.EncryptResult := by
  unfold Obligations.EncryptResult
  refine ⟨decode_encode .encrypt, fun s => ?_⟩
  split
  next hm => exact exec_encrypt_of_modulus_zero hm
  next hm =>
    split
    next large => exact exec_encrypt_of_badarg hm large
    next byte => exact exec_encrypt_of_byte hm (not_lt.1 byte)

/-- Settles O45: the modulus is 0, or the low byte of the power modulo LM is kept. -/
theorem decryptResult : Obligations.DecryptResult := by
  unfold Obligations.DecryptResult
  refine ⟨decode_encode .decrypt, fun s => ?_⟩
  split
  next hm => exact exec_decrypt_of_modulus_zero hm
  next hm => exact exec_decrypt_of_modulus_ne_zero hm

/-- Settles O58: the ciphertext is below LM and so survives RES, the key pair brings the byte back, and a byte has no
bits for DECRYPT to drop. -/
theorem rsaRoundTrip : Obligations.RsaRoundTrip := by
  unfold Obligations.RsaRoundTrip
  intro p q e d b s u inv hp hq hpq large key hb hla hlb hlm
  have modulus_pos : 0 < p * q := Nat.zero_lt_of_lt large
  have encrypted := exec_encrypt_of_byte (hlm ▸ modulus_pos.ne') (hla ▸ hb)
  rw [hla, hlb, hlm] at encrypted
  refine ⟨_, encrypted, rfl, fun res hd hn => ?_⟩
  have stored : regValue u.la = b ^ e % (p * q) := by
    have modulus_fits : p * q < 2 ^ s.params.W := hlm ▸ fitsWidth_value inv.params_wf inv.lm_fits
    rw [res]
    exact regValue_store inv.params_wf ((Nat.mod_lt _ modulus_pos).trans modulus_fits)
  rw [exec_decrypt_of_modulus_ne_zero (hn ▸ modulus_pos.ne'), stored, hd, hn,
    keyPair_roundTrip hp hq hpq key (hb.trans_lt large), Nat.mod_eq_of_lt (Nat.lt_succ_of_le hb)]

end Sys2Proof.Machine

/-! Proofs of the statements of 60_exceptions.md: which completions report an error, and with which code. -/

namespace Sys2Proof.Machine

open Sys2Proof.Claim

/-! ### ILLEGAL -/

/-- R72, R73: the words that R201 calls illegal are no command's. -/
theorem encode_toNat_legal (i : Instr) :
    (encode i).toNat / 2 ^ 8 = 0 ∧ 1 ≤ (encode i).toNat % 2 ^ 8 ∧ (encode i).toNat % 2 ^ 8 ≤ 8 := by
  cases i <;> decide

/-- R201: the completion of a latched word that is no command's does not look at the operands. -/
theorem step_of_illegal_word {s : State} (due : completionDue s) (illegal : ∀ i, s.lcmd ≠ encode i) :
    step s = .next (completedErr s .illegal) := by
  rw [step_engine (completionDue_iff.1 due), State.outcome, execReference_illegal _ illegal, complete_err]

/-! ### MODZERO and BADARG -/

/-- R202: the command reduces modulo LM, and LM = 0. -/
def ReducesModuloZero (i : Instr) (s : State) : Prop :=
  regValue s.lm = 0 ∧ (i = .mulmod ∨ i = .powmod ∨ i = .encrypt ∨ i = .decrypt)

/-- R203: MRWIT's modulus is below 3 or even, or ENCRYPT's operand is no byte; R204 leaves the modulus 0 of ENCRYPT to
MODZERO. -/
def HasBadArgument (i : Instr) (s : State) : Prop :=
  (i = .mrwit ∧ (regValue s.lm < 3 ∨ regValue s.lm % 2 = 0)) ∨
    (i = .encrypt ∧ regValue s.lm ≠ 0 ∧ 255 < regValue s.la)

section
variable {i : Instr} {s : State}

/-- R204: no operands fall under both codes. -/
theorem not_hasBadArgument_of_reducesModuloZero (zero : ReducesModuloZero i s) : ¬ HasBadArgument i s := by
  obtain ⟨hm, reduces⟩ := zero
  rintro (⟨rfl, -⟩ | ⟨-, nonzero, -⟩)
  · simp at reduces
  · exact nonzero hm

theorem exec_of_reducesModuloZero (zero : ReducesModuloZero i s) : exec i s = .next (completedErr s .modzero) := by
  obtain ⟨hm, rfl | rfl | rfl | rfl⟩ := zero
  · exact exec_mulmod_of_modulus_zero hm
  · exact exec_powmod_of_modulus_zero hm
  · exact exec_encrypt_of_modulus_zero hm
  · exact exec_decrypt_of_modulus_zero hm

theorem exec_of_hasBadArgument (bad : HasBadArgument i s) : exec i s = .next (completedErr s .badarg) := by
  obtain ⟨rfl, modulus⟩ | ⟨rfl, hm, large⟩ := bad
  · exact exec_mrwit_of_badarg modulus
  · exact exec_encrypt_of_badarg hm large

/-- R202, R203: a command completes without error when neither cause applies. -/
theorem exec_of_no_operand_error (nonzero : ¬ ReducesModuloZero i s) (good : ¬ HasBadArgument i s) :
    ∃ r p ni, exec i s = .next (completedOk s r p ni) := by
  cases i with
  | mulmod => exact ⟨_, _, _, exec_mulmod_of_modulus_ne_zero fun hm => nonzero ⟨hm, by simp⟩⟩
  | powmod => exact ⟨_, _, _, exec_powmod_of_modulus_ne_zero fun hm => nonzero ⟨hm, by simp⟩⟩
  | gcd => exact ⟨_, _, _, exec_gcd s⟩
  | modinv =>
    cases inverse : modInverse (regValue s.la) (regValue s.lm) with
    | none => exact ⟨_, _, _, exec_modinv_of_none inverse⟩
    | some x => exact ⟨_, _, _, exec_modinv_of_some inverse⟩
  | mrwit =>
    have modulus : ¬(regValue s.lm < 3 ∨ regValue s.lm % 2 = 0) := fun bad => good (.inl ⟨rfl, bad⟩)
    exact ⟨_, _, _, exec_mrwit_of_mrRound (by omega) (by omega) rfl⟩
  | isprime => exact ⟨_, _, _, exec_isprime_of_isPrimeAlg rfl⟩
  | encrypt =>
    have hm : regValue s.lm ≠ 0 := fun hm => nonzero ⟨hm, by simp⟩
    exact ⟨_, _, _, exec_encrypt_of_byte hm (not_lt.1 fun large => good (.inr ⟨rfl, hm, large⟩))⟩
  | decrypt => exact ⟨_, _, _, exec_decrypt_of_modulus_ne_zero fun hm => nonzero ⟨hm, by simp⟩⟩

end

/-! ### The statements -/

/-- Settles O8: CMD is the latched word, and an illegal word is no command's. -/
theorem illegalWordCompletes : Obligations.IllegalWordCompletes := by
  unfold Obligations.IllegalWordCompletes
  refine fun s inv due illegal => ⟨rfl, step_of_illegal_word due fun i word => ?_⟩
  have legal := encode_toNat_legal i
  rw [inv.cmd_latched, word] at illegal
  omega

/-- Settles O49: LM is 0, or else the argument is bad, or else neither and the command succeeds. -/
theorem operandErrors : Obligations.OperandErrors := by
  unfold Obligations.OperandErrors
  intro i s
  by_cases zero : ReducesModuloZero i s
  · exact ⟨_, exec_of_reducesModuloZero zero, nofun, iff_of_true rfl zero,
      iff_of_false nofun (not_hasBadArgument_of_reducesModuloZero zero), iff_of_true rfl nofun, fun _ => rfl, rfl, rfl⟩
  by_cases bad : HasBadArgument i s
  · exact ⟨_, exec_of_hasBadArgument bad, nofun, iff_of_false nofun zero, iff_of_true rfl bad, iff_of_true rfl nofun,
      fun _ => rfl, rfl, rfl⟩
  obtain ⟨r, p, ni, success⟩ := exec_of_no_operand_error zero bad
  exact ⟨_, success, nofun, iff_of_false nofun zero, iff_of_false nofun bad, iff_of_false nofun (fun coded => coded rfl),
    nofun, rfl, rfl⟩

/-- Settles O50: a rejected word is no command's, and ENCRYPT looks at the modulus before the byte. -/
theorem errorPriority : Obligations.ErrorPriority := by
  unfold Obligations.ErrorPriority
  refine ⟨fun s due no => ?_, fun s hm _ => exec_encrypt_of_modulus_zero hm⟩
  exact step_of_illegal_word due fun i word => no i (decode_eq_command.2 word)

end Sys2Proof.Machine

/-! Proofs of the statements of 30_encoding.md and of the byte lanes of 20_memory.md: which words are commands. -/

namespace Sys2Proof.Machine

open Sys2Proof.Claim

/-! ### Command words -/

/-- R72: the opcodes 0x01 to 0x08 are all in use. -/
theorem exists_encode_of_legal {w : BusWord} (reserved : w.toNat / 2 ^ 8 = 0) (lower : 1 ≤ w.toNat % 2 ^ 8)
    (upper : w.toNat % 2 ^ 8 ≤ 8) : ∃ i, w = encode i := by
  have opcode : w.toNat = 1 ∨ w.toNat = 2 ∨ w.toNat = 3 ∨ w.toNat = 4 ∨ w.toNat = 5 ∨ w.toNat = 6 ∨ w.toNat = 7 ∨
      w.toNat = 8 := by omega
  rcases opcode with h | h | h | h | h | h | h | h
  · exact ⟨.mulmod, BitVec.eq_of_toNat_eq h⟩
  · exact ⟨.powmod, BitVec.eq_of_toNat_eq h⟩
  · exact ⟨.gcd, BitVec.eq_of_toNat_eq h⟩
  · exact ⟨.modinv, BitVec.eq_of_toNat_eq h⟩
  · exact ⟨.mrwit, BitVec.eq_of_toNat_eq h⟩
  · exact ⟨.isprime, BitVec.eq_of_toNat_eq h⟩
  · exact ⟨.encrypt, BitVec.eq_of_toNat_eq h⟩
  · exact ⟨.decrypt, BitVec.eq_of_toNat_eq h⟩

/-- Settles O2: the decoder's law over all words. -/
theorem decodeInvertsEncode : Obligations.DecodeInvertsEncode := by
  unfold Obligations.DecodeInvertsEncode
  exact fun w i => decode_eq_command

/-- Settles O3: the words of the commands are the legal ones, and every other word is rejected. -/
theorem illegalWordsAreRejected : Obligations.IllegalWordsAreRejected := by
  unfold Obligations.IllegalWordsAreRejected
  intro w
  rcases decode_spec w with ⟨i, rfl, command⟩ | ⟨not_command, rejected⟩
  · have legal := encode_toNat_legal i
    exact iff_of_false (by rw [command]; rintro ⟨why, h⟩; cases h) (by omega)
  · refine iff_of_true rejected ?_
    by_contra legal
    obtain ⟨i, word⟩ := exists_encode_of_legal (w := w) (by omega) (by omega) (by omega)
    exact not_command i word

/-- Settles O1: eight words are the commands', and the other two are evaluated. -/
theorem opcodeWordsDecode : Obligations.OpcodeWordsDecode := by
  unfold Obligations.OpcodeWordsDecode
  exact ⟨decode_encode .mulmod, decode_encode .powmod, decode_encode .gcd, decode_encode .modinv, decode_encode .mrwit,
    decode_encode .isprime, decode_encode .encrypt, decode_encode .decrypt, by decide, by decide⟩

/-! ### Byte lanes -/

/-- R59: lane j is the bits [8j+7 : 8j]. -/
theorem laneOfWord_toNat (w : BusWord) (j : Nat) : (laneOfWord w j).toNat = w.toNat / 2 ^ (8 * j) % 2 ^ 8 := by
  rw [laneOfWord, BitVec.extractLsb'_toNat, Nat.shiftRight_eq_div_pow]

/-- R59: the lanes of a word, put together again, are the word. -/
theorem wordOfLanes_laneOfWord (w : BusWord) :
    wordOfLanes (laneOfWord w 0) (laneOfWord w 1) (laneOfWord w 2) (laneOfWord w 3) = w := by
  simp only [wordOfLanes, laneOfWord]
  rw [BitVec.extractLsb'_append_extractLsb'_eq_extractLsb' (by rfl),
    BitVec.extractLsb'_append_extractLsb'_eq_extractLsb' (by rfl),
    BitVec.extractLsb'_append_extractLsb'_eq_extractLsb' (by rfl)]
  exact BitVec.extractLsb'_eq_self

/-- R59: a word is decoded from its lanes as it is decoded itself. -/
theorem decodeBytes_lanesOfWord (w : BusWord) : decodeBytes (lanesOfWord w) = decode w := by
  rw [lanesOfWord, decodeBytes, wordOfLanes_laneOfWord]

/-- Settles O4: the lanes are slices of the word, which they make up again. -/
theorem byteLanesLittleEndian : Obligations.ByteLanesLittleEndian := by
  unfold Obligations.ByteLanesLittleEndian
  refine ⟨fun w j _ => laneOfWord_toNat w j, wordOfLanes_laneOfWord, fun i => ?_⟩
  rw [encodeBytes, decodeBytes_lanesOfWord, decode_encode]

/-! ### The STATUS word -/

/-- Settles O19: each field is read off the concatenation. -/
theorem statusWordLayout : Obligations.StatusWordLayout := by
  unfold Obligations.StatusWordLayout
  rintro ⟨busy, done, err, prime, noinv, ovr, code⟩
  revert busy done err prime noinv ovr
  cases code <;> decide

/-- Settles O21: each register of the reset state is evaluated. -/
theorem resetState : Obligations.ResetState := by
  unfold Obligations.ResetState
  decide

end Sys2Proof.Machine

/-! What a step does to the registers, in one lemma, and the statements that follow from it: the invariant and the rules
about what changes a register (10_state.md, 60_exceptions.md section 5, 70_reset_and_hazards.md). -/

namespace Sys2Proof.Machine

open Sys2Proof.Claim

/-! ### What a step can do to the registers -/

/-- Everything a step can do to the registers, latches and inputs (R205), with what it leaves of the LATENCY. -/
inductive StepEffect (s t : State) : Prop
  /-- R240: the reset input takes its active level. -/
  | appliesReset (turn : s.turn = .reset s.params.resetActive)
      (eq : t = { s.resetRegisters with pinChanges := s.pinChanges.tail, resetPin := s.params.resetActive })
  /-- R240: the reset input takes its inactive level. -/
  | releasesReset (level : Bool) (turn : s.turn = .reset level)
      (eq : t = { s with pinChanges := s.pinChanges.tail, resetPin := level })
  /-- R40: the command in flight completes. -/
  | completes (turn : s.turn = .engine) (eq : t = s.complete s.outcome)
  /-- R36: the host writes CMD while BUSY = 0. -/
  | accepts (v : BusWord) (turn : s.turn = .host) (write : writesCmd s v) (idle : s.status.busy = false)
      (same : sameRegisters (s.accept v) t)
  /-- R37: the host writes CMD while BUSY = 1. -/
  | drops (turn : s.turn = .host) (busy : s.status.busy = true)
      (same : sameRegisters s.dropCommand t) (delay : t.delay = s.delay - 1)
  /-- R55: the host writes a word of OPA, OPB or OPM. -/
  | writesOperand (r : RegName) (k : Nat) (v : BusWord) (turn : s.turn = .host) (not_res : r ≠ .res)
      (used : k < s.params.NW) (write : ∃ rest, s.host = .write (r.slot + 4 * k) 4 v :: rest)
      (same : sameRegisters (s.setReg (setRegWord (s.reg r) k v) r) t) (delay : t.delay = s.delay - 1)
  /-- R56, R57, R58, R52, R216: the host does anything else, or nothing. -/
  | keepsRegisters (turn : s.turn = .host) (same : sameRegisters s t) (delay : t.delay = s.delay - 1)

/-- The write of a bus word by the host, by the cases of the window. -/
theorem stepEffect_write {s : State} {off n : Nat} {v : BitVec (8 * n)} {rest : List HostMove} (turn : s.turn = .host)
    (moves : s.host = .write off n v :: rest) (answer : Response) :
    StepEffect s (((s.elapse.withHost rest).busWrite off n v).respond answer) := by
  rcases busWrite_cases (s.elapse.withHost rest) off n v with same | ⟨r, k, hr, hk, rfl, rfl, set⟩ | ⟨rfl, rfl, cmd⟩
  · rw [same]
    exact .keepsRegisters turn (by simp [sameRegisters]) rfl
  · rw [set]
    refine .writesOperand r k v turn hr hk ⟨rest, moves⟩ ?_ (State.setReg_delay ..)
    cases r <;> simp [sameRegisters, State.setReg, State.reg]
  · rw [cmd]
    rcases writeCmd_cases (s.elapse.withHost rest) (v.setWidth 32) with ⟨busy, drop⟩ | ⟨idle, accept⟩
    · rw [drop]
      exact .drops turn busy (by simp [sameRegisters]) rfl
    · rw [accept]
      exact .accepts v turn ⟨rest, moves⟩ idle (by simp [sameRegisters])

/-- Every step has one of the effects. -/
theorem stepEffect {s t : State} (h : step s = .next t) : StepEffect s t := by
  rcases step_move_cases h with ⟨level, turn, rfl⟩ | ⟨turn, rfl⟩ | ⟨turn, move⟩
  · rcases pinStep_cases s level with ⟨rfl, active⟩ | ⟨-, inactive⟩
    · exact .appliesReset turn active
    · exact .releasesReset level turn inactive
  · exact .completes turn rfl
  · rcases move with ⟨-, rfl⟩ | ⟨off, n, rest, -, -, rfl⟩ | ⟨off, n, v, rest, moves, -, rfl⟩ | ⟨rest, -, -, rfl⟩ |
      ⟨rest, -, -, rfl⟩
    · exact .keepsRegisters turn (by simp [sameRegisters]) rfl
    · exact .keepsRegisters turn (by simp [sameRegisters]) rfl
    · exact stepEffect_write turn moves _
    · exact .keepsRegisters turn (by simp [sameRegisters]) (by simp)
    · exact .keepsRegisters turn (by simp [sameRegisters]) (by simp)

/-! ### The flags of an outcome -/

/-- R31: the flag PRIME of an outcome. -/
def Result.prime : Result → Bool
  | .ok _ prime _ => prime
  | .err _ => false

/-- R32: the flag NOINV of an outcome. -/
def Result.noinv : Result → Bool
  | .ok _ _ noinv => noinv
  | .err _ => false

/-- R29: whether an outcome is an error. -/
def Result.isErr : Result → Bool
  | .ok _ _ _ => false
  | .err _ => true

theorem Status.completed_prime (st : Status) (out : Result) : (st.completed out).prime = out.prime := by
  cases out <;> rfl

theorem Status.completed_noinv (st : Status) (out : Result) : (st.completed out).noinv = out.noinv := by
  cases out <;> rfl

theorem Status.completed_err (st : Status) (out : Result) : (st.completed out).err = out.isErr := by
  cases out <;> rfl

/-- Neither verdict flag is set. -/
def Result.Unflagged (out : Result) : Prop := out.prime = false ∧ out.noinv = false

theorem unflagged_err (c : ErrCode) : (Result.err c).Unflagged := ⟨rfl, rfl⟩

theorem unflagged_ok (r : Nat) : (Result.ok r false false).Unflagged := ⟨rfl, rfl⟩

section
variable {p : Params} {i : Instr} {a b m : Nat}

/-- R31, R32: only MODINV, MRWIT and ISPRIME give a verdict. -/
theorem execReference_unflagged (h : i ≠ .modinv ∧ i ≠ .mrwit ∧ i ≠ .isprime) :
    (execReference p (encode i) a b m).Unflagged := by
  obtain ⟨not_modinv, not_mrwit, not_isprime⟩ := h
  cases i with
  | mulmod =>
    show (mulmodF a b m).Unflagged
    unfold mulmodF
    split
    · exact unflagged_err _
    · exact unflagged_ok _
  | powmod =>
    show (powmodF a b m).Unflagged
    unfold powmodF
    split
    · exact unflagged_err _
    · exact unflagged_ok _
  | gcd => exact unflagged_ok _
  | modinv => exact absurd rfl not_modinv
  | mrwit => exact absurd rfl not_mrwit
  | isprime => exact absurd rfl not_isprime
  | encrypt =>
    show (encryptF a b m).Unflagged
    unfold encryptF
    split
    · exact unflagged_err _
    · split
      · exact unflagged_err _
      · exact unflagged_ok _
  | decrypt =>
    show (decryptF a b m).Unflagged
    unfold decryptF
    split
    · exact unflagged_err _
    · exact unflagged_ok _

/-- R126: MODINV sets NOINV when there is no inverse, and never PRIME. -/
theorem modinvF_flags : (modinvF a m).prime = false ∧ ((modinvF a m).noinv = true ↔ modInverse a m = none) := by
  unfold modinvF
  cases modInverse a m with
  | none => exact ⟨rfl, iff_of_true rfl rfl⟩
  | some x => exact ⟨rfl, iff_of_false nofun nofun⟩

/-- R142: MRWIT sets PRIME when its round is run and does not reject, and never NOINV. -/
theorem mrwitF_flags : (mrwitF a m).noinv = false ∧
    ((mrwitF a m).prime = true ↔ ¬(m < 3 ∨ m % 2 = 0) ∧ mrRound a m ≠ .composite) := by
  unfold mrwitF
  split
  next bad => exact ⟨rfl, iff_of_false nofun fun run => run.1 bad⟩
  next good => exact ⟨rfl, bne_iff_ne.trans (and_iff_right good).symm⟩

/-- R31: PRIME is a verdict of MRWIT or ISPRIME. -/
theorem execReference_prime_iff : (execReference p (encode i) a b m).prime = true ↔
    (i = .mrwit ∧ ¬(m < 3 ∨ m % 2 = 0) ∧ mrRound a m ≠ .composite) ∨
      (i = .isprime ∧ isPrimeAlg p.witnesses m = true) := by
  by_cases arithmetic : i ≠ .modinv ∧ i ≠ .mrwit ∧ i ≠ .isprime
  · rw [(execReference_unflagged arithmetic).1]
    simp [arithmetic]
  · obtain rfl | rfl | rfl : i = .modinv ∨ i = .mrwit ∨ i = .isprime := by tauto
    · rw [show execReference p (encode .modinv) a b m = modinvF a m from rfl, modinvF_flags.1]
      simp
    · rw [show execReference p (encode .mrwit) a b m = mrwitF a m from rfl, mrwitF_flags.2]
      simp
    · rw [show (execReference p (encode .isprime) a b m).prime = isPrimeAlg p.witnesses m from rfl]
      simp

/-- R32: NOINV is the report of MODINV that there is no inverse. -/
theorem execReference_noinv_iff :
    (execReference p (encode i) a b m).noinv = true ↔ i = .modinv ∧ modInverse a m = none := by
  by_cases arithmetic : i ≠ .modinv ∧ i ≠ .mrwit ∧ i ≠ .isprime
  · rw [(execReference_unflagged arithmetic).2]
    simp [arithmetic]
  · obtain rfl | rfl | rfl : i = .modinv ∨ i = .mrwit ∨ i = .isprime := by tauto
    · rw [show execReference p (encode .modinv) a b m = modinvF a m from rfl, modinvF_flags.2]
      simp
    · rw [show execReference p (encode .mrwit) a b m = mrwitF a m from rfl, mrwitF_flags.1]
      simp
    · rw [show (execReference p (encode .isprime) a b m).noinv = false from rfl]
      simp

end

/-! ### The report of the latched command -/

section
variable {s : State}

/-- R201: the latched word is a command's, or its outcome is ILLEGAL. -/
theorem outcome_cases (s : State) :
    (∃ i, s.lcmd = encode i ∧ s.outcome = execReference s.params (encode i) s.opA s.opB s.opM) ∨
      s.outcome = .err .illegal := by
  rcases decode_spec s.lcmd with ⟨i, word, -⟩ | ⟨not_command, -⟩
  · exact .inl ⟨i, word, by rw [State.outcome, word]⟩
  · exact .inr (execReference_illegal _ not_command ..)

/-- R31: a latched word whose outcome sets PRIME is MRWIT's or ISPRIME's. -/
theorem decode_of_outcome_prime (h : s.outcome.prime = true) :
    decode s.lcmd = .command .mrwit ∨ decode s.lcmd = .command .isprime := by
  rcases outcome_cases s with ⟨i, word, outcome⟩ | illegal
  · rw [outcome, execReference_prime_iff] at h
    rw [word, decode_encode]
    rcases h with ⟨rfl, -⟩ | ⟨rfl, -⟩
    · exact .inl rfl
    · exact .inr rfl
  · rw [illegal] at h
    cases h

/-- R32: a latched word whose outcome sets NOINV is MODINV's, and the result is 0. -/
theorem decode_of_outcome_noinv (h : s.outcome.noinv = true) :
    decode s.lcmd = .command .modinv ∧ s.outcome = .ok 0 false true := by
  rcases outcome_cases s with ⟨i, word, outcome⟩ | illegal
  · rw [outcome, execReference_noinv_iff] at h
    obtain ⟨rfl, no_inverse⟩ := h
    refine ⟨by rw [word, decode_encode], outcome.trans ?_⟩
    show modinvF s.opA s.opM = .ok 0 false true
    rw [modinvF, no_inverse]
  · rw [illegal] at h
    cases h

/-- R29, R34: the completion's ERR and ERRCODE agree. -/
theorem complete_err_iff_code (s : State) :
    (s.complete s.outcome).status.err = true ↔ (s.complete s.outcome).status.errcode ≠ .none := by
  rcases outcome_cases s with ⟨i, -, outcome⟩ | illegal
  · obtain ⟨t, exec_t, -, -, -, agree, -⟩ := operandErrors i s
    rw [exec_eq, ← outcome] at exec_t
    cases exec_t
    exact agree
  · rw [illegal]
    exact iff_of_true rfl nofun

theorem Result.isErr_of_prime {out : Result} (h : out.prime = true) : out.isErr = false := by
  cases out with
  | ok => rfl
  | err => cases h

end

/-! ### The invariant -/

section
variable {s t : State}

theorem status_of_sameRegisters (same : sameRegisters s t) : t.status = s.status := same.2.2.1

/-- What two states with the same registers may differ in. -/
theorem eq_of_sameRegisters (same : sameRegisters s t) :
    t = { s with
      pinChanges := t.pinChanges, host := t.host, responses := t.responses, latency := t.latency
      delay := t.delay } := by
  obtain ⟨params, cmd, status, opa, opb, opm, res, lcmd, la, lb, lm, resetPin⟩ := same
  rw [← params, ← cmd, ← status, ← opa, ← opb, ← opm, ← res, ← lcmd, ← la, ← lb, ← lm, ← resetPin]

/-- The invariant looks at the registers and at the LATENCY left. -/
theorem Inv.of_sameRegisters (inv : Inv s) (same : sameRegisters s t) (idle : t.status.busy = false → t.delay = 0) :
    Inv t := by
  rw [eq_of_sameRegisters same] at idle ⊢
  exact { inv with idle_no_delay := idle }

/-- R45: the reset values meet the invariant, whatever the state before. -/
theorem inv_resetRegisters (wf : s.params.wf = true) : Inv s.resetRegisters where
  params_wf := wf
  opa_fits := zeroReg_length _
  opb_fits := zeroReg_length _
  opm_fits := zeroReg_length _
  res_fits := zeroReg_length _
  la_fits := zeroReg_length _
  lb_fits := zeroReg_length _
  lm_fits := zeroReg_length _
  cmd_latched := rfl
  not_busy_and_done := fun h => Bool.noConfusion h.1
  err_iff_code := iff_of_false nofun fun coded => coded rfl
  err_done := nofun
  prime_report := nofun
  noinv_report := nofun
  idle_no_delay := fun _ => rfl

/-- R36: acceptance clears STATUS but for BUSY and latches W-bit operands. -/
theorem Inv.accept (inv : Inv s) (v : BusWord) : Inv (s.accept v) :=
  { inv with
    la_fits := inv.opa_fits
    lb_fits := inv.opb_fits
    lm_fits := inv.opm_fits
    cmd_latched := rfl
    not_busy_and_done := fun h => Bool.noConfusion h.2
    err_iff_code := iff_of_false nofun fun coded => coded rfl
    err_done := nofun
    prime_report := nofun
    noinv_report := nofun
    idle_no_delay := nofun }

/-- R37: a dropped command touches OVR alone. -/
theorem Inv.dropCommand (inv : Inv s) : Inv s.dropCommand := { inv with }

/-- R55: a word write keeps the register's width. -/
theorem Inv.setRegWord (inv : Inv s) (r : RegName) (k : Nat) (v : BusWord) :
    Inv (s.setReg (setRegWord (s.reg r) k v) r) := by
  cases r with
  | opa => exact { inv with opa_fits := (setRegWord_length ..).trans inv.opa_fits }
  | opb => exact { inv with opb_fits := (setRegWord_length ..).trans inv.opb_fits }
  | opm => exact { inv with opm_fits := (setRegWord_length ..).trans inv.opm_fits }
  | res => exact inv

theorem completedRes_length {words : Nat} {old : Reg} (h : old.length = words) (out : Result) :
    (completedRes words old out).length = words := by
  cases out with
  | ok r p ni => exact regOfNat_length ..
  | err c => exact h

/-- R40, R29 to R32: the flags that a completion sets are those of the latched command. -/
theorem Inv.complete (inv : Inv s) (due : s.delay = 0) : Inv (s.complete s.outcome) :=
  { inv with
    res_fits := completedRes_length inv.res_fits _
    not_busy_and_done := fun h => Bool.noConfusion ((Status.completed_busy ..).symm.trans h.1)
    err_iff_code := complete_err_iff_code s
    err_done := fun _ => Status.completed_done ..
    prime_report := fun h => by
      rw [State.complete_status, Status.completed_prime] at h
      rw [State.complete_status, Status.completed_err, State.complete_cmd, inv.cmd_latched]
      exact ⟨Status.completed_done .., Result.isErr_of_prime h, decode_of_outcome_prime h⟩
    noinv_report := fun h => by
      rw [State.complete_status, Status.completed_noinv] at h
      obtain ⟨command, outcome⟩ := decode_of_outcome_noinv h
      rw [State.complete_cmd, inv.cmd_latched, outcome]
      exact ⟨rfl, rfl, command, by rw [State.complete_res, completedRes_ok, regValue_regOfNat, Nat.zero_mod]⟩
    idle_no_delay := fun _ => due }

end

/-- Settles O26, by the effects of a step: each update of the registers keeps the invariant. -/
theorem stepKeepsInv : Obligations.StepKeepsInv := by
  unfold Obligations.StepKeepsInv
  intro s t inv h
  have elapsed : t.status.busy = s.status.busy → t.delay = s.delay - 1 → t.status.busy = false → t.delay = 0 := by
    intro status delay idle
    rw [delay, inv.idle_no_delay (status ▸ idle)]
  cases stepEffect h with
  | appliesReset turn eq => rw [eq]; exact { inv_resetRegisters inv.params_wf with }
  | releasesReset level turn eq => rw [eq]; exact { inv with }
  | completes turn eq =>
    obtain ⟨-, -, -, due⟩ := turn_eq_engine.1 turn
    rw [eq]
    exact inv.complete due
  | accepts v turn write idle same =>
    refine (inv.accept v).of_sameRegisters same fun idle' => ?_
    rw [status_of_sameRegisters same] at idle'
    cases idle'
  | drops turn busy same delay =>
    exact inv.dropCommand.of_sameRegisters same (elapsed (status_of_sameRegisters same ▸ rfl) delay)
  | writesOperand r k v turn not_res used write same delay =>
    exact (inv.setRegWord r k v).of_sameRegisters same
      (elapsed (by rw [status_of_sameRegisters same, State.setReg_status]) delay)
  | keepsRegisters turn same delay =>
    exact inv.of_sameRegisters same (elapsed (by rw [status_of_sameRegisters same]) delay)

/-- Settles O25, the base case of the two step lemmas: State.reset is a state with the reset values. -/
theorem resetMeetsInv : Obligations.ResetMeetsInv := by
  unfold Obligations.ResetMeetsInv
  have wf : State.reset.params.wf = true := by decide
  exact ⟨{ inv_resetRegisters wf with }, nofun⟩

/-! ### The report -/

/-- The report is of the latches and the parameters, in STATUS and RES. -/
theorem ReportIsOfLatchedCommand.of_same {s t : State} (report : ReportIsOfLatchedCommand s)
    (params : t.params = s.params) (status : t.status = s.status) (res : t.res = s.res) (lcmd : t.lcmd = s.lcmd)
    (la : t.la = s.la) (lb : t.lb = s.lb) (lm : t.lm = s.lm) : ReportIsOfLatchedCommand t := by
  unfold ReportIsOfLatchedCommand State.outcome State.opA State.opB State.opM
  rw [params, status, res, lcmd, la, lb, lm]
  exact report

theorem reportIsOfLatchedCommand_of_not_done {s : State} (h : s.status.done = false) : ReportIsOfLatchedCommand s :=
  fun done => by rw [h] at done; cases done

theorem reportIsOfLatchedCommand_complete (s : State) : ReportIsOfLatchedCommand (s.complete s.outcome) := by
  intro _
  show s.status.completed s.outcome = (s.status.completed s.outcome).completed s.outcome ∧
    completedRes s.params.NW s.res s.outcome =
      completedRes s.params.NW (completedRes s.params.NW s.res s.outcome) s.outcome
  rw [Status.completed_completed]
  cases s.outcome with
  | ok r p ni => exact ⟨rfl, rfl⟩
  | err c => exact ⟨rfl, rfl⟩

/-- Settles O27, by the effects of a step: a completion reports, and every other effect leaves the report or clears
DONE. -/
theorem stepKeepsReport : Obligations.StepKeepsReport := by
  unfold Obligations.StepKeepsReport
  intro s t inv report h
  cases stepEffect h with
  | appliesReset turn eq => rw [eq]; exact reportIsOfLatchedCommand_of_not_done rfl
  | releasesReset level turn eq => rw [eq]; exact report.of_same rfl rfl rfl rfl rfl rfl rfl
  | completes turn eq => rw [eq]; exact reportIsOfLatchedCommand_complete s
  | accepts v turn write idle same =>
    exact reportIsOfLatchedCommand_of_not_done (status_of_sameRegisters same ▸ rfl)
  | drops turn busy same delay =>
    refine reportIsOfLatchedCommand_of_not_done ?_
    rw [status_of_sameRegisters same, State.dropCommand_status, Status.dropped_done]
    exact Bool.eq_false_iff.2 fun done => inv.not_busy_and_done ⟨busy, done⟩
  | writesOperand r k v turn not_res used write same delay =>
    obtain ⟨params, -, status, -, -, -, res, lcmd, la, lb, lm, -⟩ := same
    simp only [State.setReg_params, State.setReg_status, State.setReg_res, State.setReg_lcmd, State.setReg_la,
      State.setReg_lb, State.setReg_lm] at params status res lcmd la lb lm
    exact report.of_same params status res lcmd la lb lm
  | keepsRegisters turn same delay =>
    obtain ⟨params, -, status, -, -, -, res, lcmd, la, lb, lm, -⟩ := same
    exact report.of_same params status res lcmd la lb lm

end Sys2Proof.Machine

/-! The rules about what changes a register, when a step stops, and the step that completes a command (10_state.md,
60_exceptions.md, 70_reset_and_hazards.md). -/

namespace Sys2Proof.Machine

open Sys2Proof.Claim

/-! ### When a step stops -/

/-- R242: outside reset a step of the host side answers a state. -/
theorem hostStep_next {s : State} (h : s.inReset = true → s.host = []) : ∃ t, hostStep s = .next t := by
  have ready : ∀ {m : HostMove} {rest : List HostMove}, s.host = m :: rest → ¬ s.inReset = true :=
    fun moves applied => List.cons_ne_nil _ _ (moves.symm.trans (h applied))
  unfold hostStep
  split
  next => exact ⟨_, rfl⟩
  next moves => exact ⟨_, if_neg (ready moves)⟩
  next moves => exact ⟨_, if_neg (ready moves)⟩
  next moves => exact ⟨_, if_neg (ready moves)⟩
  next moves => exact ⟨_, if_neg (ready moves)⟩

/-- R242: the only step that answers no state is a host move while reset is applied. -/
theorem step_next_of_not_stopped {s : State} (h : ¬(s.turn = .host ∧ s.inReset = true ∧ s.host ≠ [])) :
    ∃ t, step s = .next t := by
  cases turn : s.turn with
  | reset level => exact ⟨_, step_reset turn⟩
  | engine => exact ⟨_, step_engine turn⟩
  | host =>
    rw [step_host turn]
    exact hostStep_next fun applied => by_contra fun moves => h ⟨turn, applied, moves⟩

theorem turn_eq_host_in_reset {s : State} (hr : s.inReset = true) : s.turn = .host ↔ quietFor 0 s := by
  rw [turn_eq_host, ← quietFor_zero_iff, hr]
  simp

/-- Settles O10: the step that stops is a fault, and every other step answers a state. -/
theorem stepStopsOnlyDuringReset : Obligations.StepStopsOnlyDuringReset := by
  unfold Obligations.StepStopsOnlyDuringReset
  intro s
  by_cases stopped : s.turn = .host ∧ s.inReset = true ∧ s.host ≠ []
  · obtain ⟨turn, hr, moves⟩ := stopped
    obtain ⟨m, rest, hm⟩ := List.exists_cons_of_ne_nil moves
    have fault := step_in_reset turn hr hm
    refine ⟨iff_of_true ⟨_, fault⟩ ⟨(turn_eq_host_in_reset hr).1 turn, hr, moves⟩, fun r refused => ?_⟩
    rw [fault] at refused
    cases refused
  · obtain ⟨t, next⟩ := step_next_of_not_stopped stopped
    rw [next]
    refine ⟨iff_of_false nofun ?_, nofun⟩
    rintro ⟨quiet, hr, moves⟩
    exact stopped ⟨(turn_eq_host_in_reset hr).2 quiet, hr, moves⟩

/-! ### What changes a register -/

/-- Settles O29: of the effects of a step, only a completion and reset write RES, and an error leaves it. -/
theorem resChangesOnlyBySuccess : Obligations.ResChangesOnlyBySuccess := by
  unfold Obligations.ResChangesOnlyBySuccess
  intro s t h changed
  cases stepEffect h with
  | appliesReset turn eq => exact .inr ⟨appliesReset_iff.2 turn, by rw [eq]; exact regValue_zeroReg _⟩
  | releasesReset level turn eq => exact absurd (by rw [eq]) changed
  | completes turn eq =>
    subst eq
    refine .inl ⟨completionDue_iff.2 turn, Status.completed_done .., ?_⟩
    rw [State.complete_res] at changed
    rw [State.complete_status]
    cases outcome : s.outcome with
    | ok r p ni => rfl
    | err c => exact absurd (by rw [outcome, completedRes_err]) changed
  | accepts v turn write idle same =>
    obtain ⟨-, -, -, -, -, -, res, -⟩ := same
    exact absurd res changed
  | drops turn busy same delay =>
    obtain ⟨-, -, -, -, -, -, res, -⟩ := same
    exact absurd res changed
  | writesOperand r k v turn not_res used write same delay =>
    obtain ⟨-, -, -, -, -, -, res, -⟩ := same
    exact absurd (res.trans (State.setReg_res ..)) changed
  | keepsRegisters turn same delay =>
    obtain ⟨-, -, -, -, -, -, res, -⟩ := same
    exact absurd res changed

/-- Settles O31: of the effects of a step, only an acceptance and reset write CMD or a latch. -/
theorem latchesChangeOnlyAtAcceptance : Obligations.LatchesChangeOnlyAtAcceptance := by
  unfold Obligations.LatchesChangeOnlyAtAcceptance
  intro s t h
  cases stepEffect h with
  | appliesReset turn eq => exact .inr (.inr (appliesReset_iff.2 turn))
  | releasesReset level turn eq => subst eq; exact .inl ⟨rfl, rfl, rfl, rfl, rfl⟩
  | completes turn eq => subst eq; exact .inl ⟨rfl, rfl, rfl, rfl, rfl⟩
  | accepts v turn write idle same =>
    obtain ⟨-, cmd, status, -, -, -, -, lcmd, la, lb, lm, -⟩ := same
    exact .inr (.inl ⟨idle, by rw [status]; rfl, ⟨v, write, cmd, lcmd⟩, la, lb, lm⟩)
  | drops turn busy same delay =>
    obtain ⟨-, cmd, -, -, -, -, -, lcmd, la, lb, lm, -⟩ := same
    exact .inl ⟨cmd, lcmd, la, lb, lm⟩
  | writesOperand r k v turn not_res used write same delay =>
    obtain ⟨-, cmd, -, -, -, -, -, lcmd, la, lb, lm, -⟩ := same
    exact .inl ⟨cmd.trans (State.setReg_cmd ..), lcmd.trans (State.setReg_lcmd ..), la.trans (State.setReg_la ..),
      lb.trans (State.setReg_lb ..), lm.trans (State.setReg_lm ..)⟩
  | keepsRegisters turn same delay =>
    obtain ⟨-, cmd, -, -, -, -, -, lcmd, la, lb, lm, -⟩ := same
    exact .inl ⟨cmd, lcmd, la, lb, lm⟩

/-- Settles O32: of the effects of a step, only a host write of an operand word and reset write OPA, OPB or OPM. -/
theorem operandsChangeOnlyByHost : Obligations.OperandsChangeOnlyByHost := by
  unfold Obligations.OperandsChangeOnlyByHost
  intro s t h changed
  have unchanged : t.opa = s.opa → t.opb = s.opb → t.opm = s.opm → False := fun opa opb opm =>
    changed.elim (fun c => c opa) fun changed => changed.elim (fun c => c opb) fun c => c opm
  rw [completionDue_iff, appliesReset_iff]
  cases stepEffect h with
  | appliesReset turn eq => exact ⟨by rw [turn]; nofun, .inr turn⟩
  | releasesReset level turn eq => subst eq; exact (unchanged rfl rfl rfl).elim
  | completes turn eq => subst eq; exact (unchanged rfl rfl rfl).elim
  | accepts v turn write idle same =>
    obtain ⟨-, -, -, opa, opb, opm, -⟩ := same
    exact (unchanged opa opb opm).elim
  | drops turn busy same delay =>
    obtain ⟨-, -, -, opa, opb, opm, -⟩ := same
    exact (unchanged opa opb opm).elim
  | writesOperand r k v turn not_res used write same delay =>
    obtain ⟨rest, moves⟩ := write
    exact ⟨by rw [turn]; nofun, .inl ⟨_, v, rest, moves, isOperandWord_of_slot not_res used⟩⟩
  | keepsRegisters turn same delay =>
    obtain ⟨-, -, -, opa, opb, opm, -⟩ := same
    exact (unchanged opa opb opm).elim

/-- Settles O33: DONE shuts out a completion and a dropped command, and its staying 1 an acceptance and reset; no other
effect of a step writes STATUS, RES or CMD. -/
theorem reportStandsWhileDone : Obligations.ReportStandsWhileDone := by
  unfold Obligations.ReportStandsWhileDone
  intro s t inv done h done'
  have not_busy : ¬ s.status.busy = true := fun busy => inv.not_busy_and_done ⟨busy, done⟩
  cases stepEffect h with
  | appliesReset turn eq => subst eq; cases done'
  | releasesReset level turn eq => subst eq; exact ⟨rfl, rfl, rfl⟩
  | completes turn eq =>
    obtain ⟨-, busy, -⟩ := turn_eq_engine.1 turn
    exact absurd busy not_busy
  | accepts v turn write idle same =>
    rw [status_of_sameRegisters same] at done'
    cases done'
  | drops turn busy same delay => exact absurd busy not_busy
  | writesOperand r k v turn not_res used write same delay =>
    obtain ⟨-, cmd, status, -, -, -, res, -⟩ := same
    exact ⟨status.trans (State.setReg_status ..), res.trans (State.setReg_res ..), cmd.trans (State.setReg_cmd ..)⟩
  | keepsRegisters turn same delay =>
    obtain ⟨-, cmd, status, -, -, -, res, -⟩ := same
    exact ⟨status, res, cmd⟩

/-- Settles O34: a step without a move only lets time pass. -/
theorem idleKeepsRegisters : Obligations.IdleKeepsRegisters := by
  unfold Obligations.IdleKeepsRegisters
  intro s idle quiet moves
  have turn : s.turn = .host := turn_of_hostTurn ⟨quiet, .inl idle⟩
  exact ⟨_, step_no_move turn moves, by simp [sameRegisters], moves⟩

/-- Settles O35: no effect of a step writes the parameters. -/
theorem stepKeepsParameters : Obligations.StepKeepsParameters := by
  unfold Obligations.StepKeepsParameters
  intro s t h
  cases stepEffect h with
  | appliesReset turn eq => subst eq; rfl
  | releasesReset level turn eq => subst eq; rfl
  | completes turn eq => subst eq; rfl
  | accepts v turn write idle same => exact same.1
  | drops turn busy same delay => exact same.1
  | writesOperand r k v turn not_res used write same delay => exact same.1.trans (State.setReg_params ..)
  | keepsRegisters turn same delay => exact same.1

/-! ### The step that completes a command -/

/-- Settles O5: the engine decodes the latched word. -/
theorem stepRunsTheCommandInFlight : Obligations.StepRunsTheCommandInFlight := by
  unfold Obligations.StepRunsTheCommandInFlight
  intro s i due command
  rw [step_engine (completionDue_iff.1 due), State.outcome, decode_eq_command.1 command, exec_eq]

theorem tableWord_encode (i : Instr) : tableWord 32 (encode i).toNat = encode i := by
  rw [tableWord, Nat.mod_eq_of_lt (encode i).isLt, BitVec.ofNat_toNat, BitVec.setWidth_eq]

/-- A command placed in flight is due at once. -/
theorem completionDue_withCommand (s : State) (v : BusWord) : completionDue (s.withCommand v) :=
  ⟨nofun, rfl, by simp [State.inReset], rfl⟩

/-- Settles O6: the word placed is the command's, and its completion is due. -/
theorem fetchWordRunsNext : Obligations.FetchWordRunsNext := by
  unfold Obligations.FetchWordRunsNext
  intro s i
  refine stepRunsTheCommandInFlight _ i (completionDue_withCommand s _) ?_
  show decode (tableWord 32 (encode i).toNat) = .command i
  rw [tableWord_encode, decode_encode]

/-- Settles O24: the operands latched at reset are 0, so the four commands that reduce modulo LM find no modulus, and
MODINV no inverse. -/
theorem firstCommandAfterReset : Obligations.FirstCommandAfterReset := by
  unfold Obligations.FirstCommandAfterReset
  have modulus : ∀ w, regValue (State.reset.withFetchWord 32 w).lm = 0 := fun w => regValue_zeroReg _
  have runs := fun i => fetchWordRunsNext State.reset i
  exact ⟨(runs .mulmod).trans (exec_mulmod_of_modulus_zero (modulus _)),
    (runs .powmod).trans (exec_powmod_of_modulus_zero (modulus _)),
    (runs .encrypt).trans (exec_encrypt_of_modulus_zero (modulus _)),
    (runs .decrypt).trans (exec_decrypt_of_modulus_zero (modulus _)),
    (runs .modinv).trans (exec_modinv_of_none (modInverse_none (.inl (by rw [modulus]; exact Nat.zero_le 1))))⟩

/-! ### A change of the reset input -/

theorem step_due_change {s : State} {level : Bool} {later : List PinChange}
    (pins : s.pinChanges = { after := 0, level := level } :: later) : step s = .next (s.pinStep level) :=
  step_reset (turn_eq_reset.2 (dueChange_eq_some.2 ⟨later, pins⟩))

/-- R45, R241: the active level writes the reset values. -/
theorem pinStep_active (s : State) : s.pinStep s.params.resetActive =
    { s.resetRegisters with pinChanges := s.pinChanges.tail, resetPin := s.params.resetActive } := by
  rcases pinStep_cases s s.params.resetActive with ⟨-, eq⟩ | ⟨inactive, -⟩
  · exact eq
  · exact absurd rfl inactive

/-- R243: the inactive level writes no register. -/
theorem pinStep_inactive (s : State) : s.pinStep (!s.params.resetActive) =
    { s with pinChanges := s.pinChanges.tail, resetPin := !s.params.resetActive } := by
  rcases pinStep_cases s (!s.params.resetActive) with ⟨active, -⟩ | ⟨-, eq⟩
  · simp at active
  · exact eq

/-- R45: the reset value of STATUS. -/
theorem Status.reset_word : ({} : Status).word = 0x00000000#32 := by decide

/-- Settles O22: the step of the reset input writes the reset values, and the host's lists stay. -/
theorem applyingReset : Obligations.ApplyingReset := by
  unfold Obligations.ApplyingReset
  intro s applies
  obtain ⟨later, pins⟩ := applies
  have next := step_due_change pins
  rw [pinStep_active] at next
  refine ⟨_, zeroReg s.params, next, rfl, rfl, beq_self_eq_true _, rfl, zeroReg_length _, regValue_zeroReg _,
    Status.reset_word, ?_⟩
  simp [sameRegisters]

end Sys2Proof.Machine

/-! Proofs of the statements about single and repeated transactions (20_memory.md), and about a write beside a
completion (70_reset_and_hazards.md section 3). -/

namespace Sys2Proof.Machine

open Sys2Proof.Claim

/-! ### Words of the window -/

theorem idWord_toNat {p : Params} (wf : p.wf = true) : (idWord p).toNat = 0x5253 * 2 ^ 16 + p.W := by
  have width := ((params_wf_iff p).1 wf).2.2.1
  have low : p.W < 2 ^ 16 := by omega
  rw [idWord, BitVec.toNat_append, BitVec.toNat_ofNat p.W, Nat.mod_eq_of_lt low, ← Nat.shiftLeft_add_eq_or_of_lt low,
    Nat.shiftLeft_eq]
  rfl

/-- R54: a read at word k of a register's slot gives that slice of its value. -/
theorem readWord_reg {s : State} (wf : s.params.wf = true) (r : RegName) {k : Nat} (used : k < s.params.NW) :
    (s.readWord (r.slot + 4 * k)).toNat = regValue (s.reg r) / 2 ^ (32 * k) % 2 ^ 32 := by
  rw [State.readWord, slotAt_reg wf r used, regWord_toNat]

/-- R54, R55: the slices of a register after a word write. -/
theorem regValue_setRegWord {r : Reg} {k : Nat} (used : k < r.length) (v : BusWord) (j : Nat) :
    regValue (setRegWord r k v) / 2 ^ (32 * j) % 2 ^ 32 =
      if j = k then v.toNat else regValue r / 2 ^ (32 * j) % 2 ^ 32 := by
  rw [← regWord_toNat, ← regWord_toNat, regWord_setRegWord used]
  exact apply_ite BitVec.toNat ..

theorem legalAccess_slot {p : Params} (wf : p.wf = true) (r : RegName) {k : Nat} (used : k < p.NW) :
    legalAccess (r.slot + 4 * k) 4 := by
  have words := NW_le wf
  have slot : r.slot % 4 = 0 ∧ r.slot ≤ 0x100 := by cases r <;> decide
  exact ⟨rfl, by omega, by omega⟩

/-- R55: the host's write to a word of a register is answered with OK and sets the word. -/
theorem performs_word_write {s : State} {r : RegName} {k : Nat} {v : BusWord} {rest : List HostMove}
    (wf : s.params.wf = true) (turn : hostTurn s) (hr : s.inReset = false) (used : k < s.params.NW)
    (hm : s.host = .write (r.slot + 4 * k) 4 v :: rest) :
    performs s (s.setReg (setRegWord (s.reg r) k v) r) .ok := by
  have h := performs_write turn hr hm
  rwa [busWrite_operand wf used, busWriteResponse_legal (legalAccess_slot wf r used)] at h

/-- Settles O13: the three registers are words of the window alike. -/
theorem operandWordWrite : Obligations.OperandWordWrite := by
  unfold Obligations.OperandWordWrite
  intro s off k v rest inv turn hr used hm
  have word : ∀ r : RegName, off = r.slot + 4 * k → performs s (s.setReg (setRegWord (s.reg r) k v) r) .ok :=
    fun r at_word => performs_word_write inv.params_wf turn hr used (at_word ▸ hm)
  have slices : ∀ x : Reg, fitsWidth s.params x → (setRegWord x k v).length = s.params.NW ∧
      ∀ j, regValue (setRegWord x k v) / 2 ^ (32 * j) % 2 ^ 32 =
        if j = k then v.toNat else regValue x / 2 ^ (32 * j) % 2 ^ 32 :=
    fun x fits => ⟨(setRegWord_length ..).trans fits, regValue_setRegWord (fits ▸ used) v⟩
  exact ⟨fun at_word => ⟨_, word .opa at_word, slices _ inv.opa_fits⟩,
    fun at_word => ⟨_, word .opb at_word, slices _ inv.opb_fits⟩,
    fun at_word => ⟨_, word .opm at_word, slices _ inv.opm_fits⟩⟩

/-- Settles O14: the read answers what stands at the offset, by the places of the map. -/
theorem windowReads : Obligations.WindowReads := by
  unfold Obligations.WindowReads
  intro s off rest wf turn hr legal hm
  have read := performs_read turn hr hm
  rw [busRead_legal legal] at read
  refine ⟨_, read, ?_, ?_, ?_, ?_, ?_, ?_, ?_, ?_⟩
  · rintro rfl; exact idWord_toNat wf
  · rintro rfl; rfl
  · rintro rfl; rfl
  · rintro k used rfl; exact readWord_reg wf .opa used
  · rintro k used rfl; exact readWord_reg wf .opb used
  · rintro k used rfl; exact readWord_reg wf .opm used
  · rintro k used rfl; exact readWord_reg wf .res used
  · intro not_id not_cmd not_status not_operand not_result
    exact readWord_reserved (slotAt_eq_reserved legal not_id not_cmd not_status not_operand not_result)

/-! ### Two transactions in a row -/

section
variable {s t : State}

/-- While the reset input is quiet for n + 1 more steps, a step of the host side leaves it quiet for n. -/
theorem quietFor_of_countDown {n : Nat} (quiet : quietFor (n + 1) s) (changes : t.pinChanges = countDown s.pinChanges) :
    quietFor n t := by
  unfold quietFor at quiet ⊢
  rw [changes]
  cases pins : s.pinChanges with
  | nil => simp [countDown]
  | cons c later =>
    have far := quiet c (by simp [pins])
    simp only [countDown, List.head?_cons, Option.mem_some_iff, forall_eq']
    omega

theorem quietFor_mono {m n : Nat} (le : m ≤ n) (quiet : quietFor n s) : quietFor m s :=
  fun c first => Nat.lt_of_le_of_lt le (quiet c first)

end

/-- R58: a write other than to CMD changes nothing where it has just been made. -/
theorem busWrite_made {s x : State} {off n : Nat} {v : BitVec (8 * n)} (not_cmd : off ≠ 0x004)
    (params : x.params = (s.busWrite off n v).params) (opa : x.opa = (s.busWrite off n v).opa)
    (opb : x.opb = (s.busWrite off n v).opb) (opm : x.opm = (s.busWrite off n v).opm) : x.busWrite off n v = x := by
  rw [busWrite_operands_only (s.busWrite off n v) x v not_cmd params opa opb opm, busWrite_idem s v not_cmd, ← opa,
    ← opb, ← opm]

theorem step_write_again {x : State} {off n : Nat} {v : BitVec (8 * n)} {a : Response} {rest : List HostMove}
    (not_cmd : off ≠ 0x004) (turn : ((x.busWrite off n v).respond a).turn = .host) (hr : x.inReset = false)
    (hm : x.host = .write off n v :: rest) :
    step ((x.busWrite off n v).respond a) =
      .next ((((x.busWrite off n v).respond a).elapse.withHost rest).respond (busWriteResponse off n)) := by
  have made : (((x.busWrite off n v).respond a).elapse.withHost rest).busWrite off n v =
      ((x.busWrite off n v).respond a).elapse.withHost rest :=
    busWrite_made (s := x) not_cmd (by simp) (by simp) (by simp) (by simp)
  rw [step_write turn ((busWrite_inReset ..).trans hr) ((busWrite_host ..).trans hm), made]

/-- R216, R39: a step of the host side that has left the machine idle is followed by another one. -/
theorem turn_after_elapse {s t : State} (quiet : quietFor 1 s) (changes : t.pinChanges = s.elapse.pinChanges)
    (waiting : t.status.busy = false ∨ 0 < t.delay) : t.turn = .host :=
  turn_of_hostTurn ⟨quietFor_of_countDown quiet changes, waiting⟩

section
variable {s : State} {off : Nat} {rest : List HostMove} (idle : s.status.busy = false) (hr : s.inReset = false)
  (quiet : quietFor 1 s)
include idle hr quiet

theorem repeated_read (hm : s.host = .read off 4 :: .read off 4 :: rest) :
    ∃ x t, runSteps 2 s = .next t ∧ sameRegisters s t ∧ t.responses = x :: x :: s.responses := by
  have first := step_read (turn_of_hostTurn ⟨quietFor_mono zero_le_one quiet, .inl idle⟩) hr hm
  have turn : ((s.elapse.withHost (.read off 4 :: rest)).respond (s.elapse.busRead off 4)).turn = .host :=
    turn_after_elapse quiet rfl (.inl idle)
  have second := step_read turn hr rfl
  refine ⟨s.busRead off 4, _, (runSteps_succ_next first).trans (runSteps_succ_next second), ?_, ?_⟩
  · simp [sameRegisters]
  · simp [State.busRead]

theorem repeated_write {v : BusWord} (not_cmd : off ≠ 0x004)
    (hm : s.host = .write off 4 v :: .write off 4 v :: rest) :
    ∃ t u, runSteps 1 s = .next t ∧ runSteps 2 s = .next u ∧ sameRegisters t u := by
  have first := step_write (turn_of_hostTurn ⟨quietFor_mono zero_le_one quiet, .inl idle⟩) hr hm
  have status := busWrite_status (s := s.elapse.withHost (.write off 4 v :: rest)) (n := 4) v fun h => not_cmd h.2
  have turn : (((s.elapse.withHost (.write off 4 v :: rest)).busWrite off 4 v).respond (busWriteResponse off 4)).turn =
      .host :=
    turn_after_elapse quiet (busWrite_pinChanges ..) (.inl ((congrArg Status.busy status).trans idle))
  have second := step_write_again not_cmd turn hr rfl
  refine ⟨_, _, runSteps_succ_next first, (runSteps_succ_next first).trans (runSteps_succ_next second), ?_⟩
  simp [sameRegisters]

theorem repeated_command {v : BusWord} (latency : 0 < s.latency.headD 0)
    (hm : s.host = .write 0x004 4 v :: .write 0x004 4 v :: rest) :
    ∃ t u, runSteps 1 s = .next t ∧ runSteps 2 s = .next u ∧ t.status.busy = true ∧ t.cmd = v ∧
      u.status = { t.status with ovr := true } ∧ sameRegisters { t with status := u.status } u := by
  have first := step_acceptsCommand (turn_of_hostTurn ⟨quietFor_mono zero_le_one quiet, .inl idle⟩) hr ⟨_, hm⟩ idle
  have turn : (((s.elapse.withHost s.host.tail).accept v).drawLatency.respond .ok).turn = .host :=
    turn_after_elapse quiet rfl (.inr latency)
  have second := step_dropsCommand (v := v) turn hr ⟨rest, by simp [hm]⟩ rfl
  refine ⟨_, _, runSteps_succ_next first, (runSteps_succ_next first).trans (runSteps_succ_next second), rfl, rfl, rfl,
    ?_⟩
  simp [sameRegisters]

end

/-- Settles O18: a read changes nothing that a second one could see; a write made again finds its word there; a second
CMD write finds BUSY = 1, the LATENCY not being over. -/
theorem repeatedTransactions : Obligations.RepeatedTransactions := by
  unfold Obligations.RepeatedTransactions
  intro s off rest idle hr quiet
  exact ⟨repeated_read idle hr quiet, fun v => repeated_write idle hr quiet, fun v => repeated_command idle hr quiet⟩

/-! ### A write beside the completion -/

/-- The state with the operand registers of another one. -/
def State.withOperandsOf (x u : State) : State := { x with opa := u.opa, opb := u.opb, opm := u.opm }

/-- R38: a write other than to CMD replaces the operand registers alike in every state that agrees on them. -/
theorem step_operand_write {s u : State} {off n : Nat} {v : BitVec (8 * n)} {rest : List HostMove}
    (turn : s.turn = .host) (hr : s.inReset = false) (hm : s.host = .write off n v :: rest) (not_cmd : off ≠ 0x004)
    (params : s.params = u.params) (opa : s.opa = u.opa) (opb : s.opb = u.opb) (opm : s.opm = u.opm) :
    step s =
      .next (((s.elapse.withHost rest).withOperandsOf (u.busWrite off n v)).respond (busWriteResponse off n)) := by
  rw [step_write turn hr hm, busWrite_operands_only u (s.elapse.withHost rest) v not_cmd params opa opb opm]
  rfl

/-- The state after a move of the host that writes operands and the completion, in the one order and in the other. -/
theorem withOperandsOf_complete {s u : State} {rest : List HostMove} {a : Response} {out : Result}
    (delay : s.delay = 1) :
    ((({ s with delay := 0 }.complete out).elapse.withHost rest).withOperandsOf u).respond a =
      (((s.elapse.withHost rest).withOperandsOf u).respond a).complete out := by
  cases s
  subst delay
  rfl

/-- Settles O20: the completion writes RES and STATUS from the latches, the write writes operands alone. -/
theorem operandWriteCommutesWithCompletion : Obligations.OperandWriteCommutesWithCompletion := by
  unfold Obligations.OperandWriteCommutesWithCompletion
  intro s off n v rest busy hr quiet delay hm not_cmd
  have now_quiet : quietFor 0 s := quietFor_mono zero_le_one quiet
  have write := step_operand_write (u := s) (turn_of_hostTurn ⟨now_quiet, .inr (by omega)⟩) hr hm not_cmd rfl rfl rfl
    rfl
  have due : completionDue (((s.elapse.withHost rest).withOperandsOf (s.busWrite off n v)).respond
      (busWriteResponse off n)) :=
    ⟨quietFor_of_countDown quiet rfl, busy, hr, congrArg (· - 1) delay⟩
  have due_now : completionDue { s with delay := 0 } := ⟨now_quiet, busy, hr, rfl⟩
  have turn : ({ s with delay := 0 }.complete s.outcome).turn = .host :=
    turn_of_hostTurn ⟨now_quiet, .inl (Status.completed_busy ..)⟩
  have write_after := step_operand_write (u := s) turn hr hm not_cmd rfl rfl rfl rfl
  rw [withOperandsOf_complete delay] at write_after
  exact ⟨_, (runSteps_succ_next write).trans (runSteps_succ_next (step_engine (completionDue_iff.1 due))),
    (runSteps_succ_next (step_engine (completionDue_iff.1 due_now))).trans (runSteps_succ_next write_after)⟩

end Sys2Proof.Machine

/-! Proofs of the statements about runs of several steps: a command in flight comes to its completion, and a polling
loop meets a reset (10_state.md section 5, 70_reset_and_hazards.md sections 1 and 3). -/

namespace Sys2Proof.Machine

open Sys2Proof.Claim

/-! ### A command in flight -/

/-- R240: a step of the host side brings the next change of the reset input a step nearer. -/
theorem step_pinChanges {s t : State} (h : step s = .next t) (turn : s.turn = .host) :
    t.pinChanges = countDown s.pinChanges := by
  rw [step_host turn] at h
  rcases hostStep_cases h with ⟨-, rfl⟩ | ⟨off, n, rest, -, -, rfl⟩ | ⟨off, n, v, rest, -, -, rfl⟩ | ⟨rest, -, -, rfl⟩ |
    ⟨rest, -, -, rfl⟩
  · rfl
  · rfl
  · exact busWrite_pinChanges ..
  · exact State.pollStep_pinChanges ..
  · exact State.pollStep_pinChanges ..

/-- The same command is in flight in both states, on the same latches and over the same RES. -/
structure SameFlight (s t : State) : Prop where
  busy : t.status.busy = s.status.busy
  inReset : t.inReset = s.inReset
  params : t.params = s.params
  lcmd : t.lcmd = s.lcmd
  outcome : t.outcome = s.outcome
  res : t.res = s.res

theorem SameFlight.trans {s t u : State} (h : SameFlight s t) (h' : SameFlight t u) : SameFlight s u :=
  ⟨h'.busy.trans h.busy, h'.inReset.trans h.inReset, h'.params.trans h.params, h'.lcmd.trans h.lcmd,
    h'.outcome.trans h.outcome, h'.res.trans h.res⟩

/-- What the flight looks at is among the registers that no host move writes while BUSY = 1. -/
theorem SameFlight.of_sameRegisters {s u t : State} (flight : SameFlight s u) (same : sameRegisters u t) :
    SameFlight s t := by
  rw [eq_of_sameRegisters same]
  exact { flight with }

/-- R37, R38, R39: a step of the host side, whatever the move, leaves the command in flight. -/
theorem step_in_flight {s t : State} (h : step s = .next t) (turn : s.turn = .host) (busy : s.status.busy = true) :
    SameFlight s t ∧ t.delay = s.delay - 1 := by
  have refl : SameFlight s s := ⟨rfl, rfl, rfl, rfl, rfl, rfl⟩
  cases stepEffect h with
  | appliesReset turn' eq => rw [turn] at turn'; cases turn'
  | releasesReset level turn' eq => rw [turn] at turn'; cases turn'
  | completes turn' eq => rw [turn] at turn'; cases turn'
  | accepts v turn write idle same => rw [busy] at idle; cases idle
  | drops turn busy same delay =>
    exact ⟨SameFlight.of_sameRegisters (u := s.dropCommand) { refl with } same, delay⟩
  | writesOperand r k v turn not_res used write same delay =>
    refine ⟨SameFlight.of_sameRegisters ?_ same, delay⟩
    cases r <;> exact { refl with }
  | keepsRegisters turn same delay => exact ⟨refl.of_sameRegisters same, delay⟩

/-- R39, R40: a command in flight completes after as many steps as the LATENCY left, and one more. -/
theorem run_to_completion : ∀ (n : Nat) (s : State), s.status.busy = true → s.inReset = false → quietFor n s →
    s.delay = n → ∃ u, SameFlight s u ∧ runSteps (n + 1) s = .next (u.complete u.outcome)
  | 0, s, busy, hr, quiet, delay =>
    ⟨s, ⟨rfl, rfl, rfl, rfl, rfl, rfl⟩,
      runSteps_succ_next (step_engine (completionDue_iff.1 ⟨quiet, busy, hr, delay⟩))⟩
  | n + 1, s, busy, hr, quiet, delay => by
    have turn : s.turn = .host := turn_of_hostTurn ⟨quietFor_mono (Nat.zero_le _) quiet, .inr (by omega)⟩
    obtain ⟨t, next⟩ := step_next_of_not_stopped (s := s) (by simp [hr])
    obtain ⟨flight, delay'⟩ := step_in_flight next turn busy
    obtain ⟨u, flight', run⟩ := run_to_completion n t (flight.busy.trans busy) (flight.inReset.trans hr)
      (quietFor_of_countDown quiet (step_pinChanges next turn)) (by omega)
    exact ⟨u, flight.trans flight', (runSteps_succ_next next).trans run⟩

/-- Settles O9: at the end of the LATENCY the latches and RES are still those of the start. -/
theorem commandInFlightCompletes : Obligations.CommandInFlightCompletes := by
  unfold Obligations.CommandInFlightCompletes
  intro s busy hr quiet
  obtain ⟨u, flight, run⟩ := run_to_completion s.delay s busy hr quiet rfl
  rw [flight.outcome] at run
  refine ⟨_, run, Status.completed_busy .., Status.completed_done .., flight.lcmd, fun r p ni ok => ?_, fun c err => ?_⟩
  · rw [show s.outcome = .ok r p ni from ok, ← flight.params]
    exact ⟨rfl, rfl, rfl, rfl, rfl⟩
  · rw [show s.outcome = .err c from err]
    exact ⟨flight.res, rfl, rfl, rfl, rfl⟩

/-! ### A polling loop -/

/-- The host's next move is a polling loop that the next read of STATUS does not end. -/
def State.Polls (s : State) : Prop :=
  (∃ rest, s.host = .wait :: rest ∧ s.status.busy = true) ∨ (∃ rest, s.host = .waitDone :: rest ∧ s.status.done = false)

/-- The state after k polls that do not end the loop. -/
def State.polled (s : State) (k : Nat) : State :=
  { s with
    delay := s.delay - k, pinChanges := countDown^[k] s.pinChanges
    responses := List.replicate k (.data s.status.word) ++ s.responses }

theorem State.polled_succ (s : State) (k : Nat) :
    (s.elapse.respond (.data s.status.word)).polled k = s.polled (k + 1) := by
  have left : s.delay - 1 - k = s.delay - (k + 1) := by omega
  simp [State.polled, left, List.replicate_succ']

/-- R81: such a poll adds the STATUS word to the responses. -/
theorem step_poll {s : State} (polls : s.Polls) (turn : s.turn = .host) (hr : s.inReset = false) :
    step s = .next (s.elapse.respond (.data s.status.word)) := by
  rcases polls with ⟨rest, hm, busy⟩ | ⟨rest, hm, not_done⟩
  · rw [step_wait turn hr hm, busy]
    rfl
  · rw [step_waitDone turn hr hm, not_done]
    rfl

/-- The next change of the reset input has at least k steps of the host side before it. -/
def State.ChangesAfter (s : State) (k : Nat) : Prop := ∀ c ∈ s.pinChanges.head?, k ≤ c.after

theorem changesAfter_succ_iff {s : State} {k : Nat} : s.ChangesAfter (k + 1) ↔ quietFor k s := Iff.rfl

theorem State.ChangesAfter.elapse {s : State} {k : Nat} (h : s.ChangesAfter (k + 1)) : s.elapse.ChangesAfter k := by
  cases k with
  | zero => exact fun c _ => Nat.zero_le _
  | succ k => exact quietFor_of_countDown h rfl

/-- R81, R251: k polls of a loop that does not end, when neither a completion nor a change of the reset input comes
among them. -/
theorem runSteps_polls : ∀ (k : Nat) (s : State), s.Polls → s.inReset = false → s.ChangesAfter k →
    s.status.busy = false ∨ k ≤ s.delay → runSteps k s = .next (s.polled k)
  | 0, s, _, _, _, _ => rfl
  | k + 1, s, polls, hr, changes, waiting => by
    have turn : s.turn = .host := turn_of_hostTurn
      ⟨quietFor_mono (Nat.zero_le k) (changesAfter_succ_iff.1 changes), waiting.imp_right fun le => by omega⟩
    rw [runSteps_succ_next (step_poll polls turn hr), ← State.polled_succ]
    exact runSteps_polls k _ polls hr changes.elapse (waiting.imp_right fun le => Nat.le_sub_of_add_le le)

theorem iterate_countDown_nil (k : Nat) : countDown^[k] [] = [] := Function.iterate_fixed rfl k

theorem iterate_countDown_cons (k : Nat) (c : PinChange) (later : List PinChange) :
    countDown^[k] (c :: later) = { c with after := c.after - k } :: later := by
  induction k generalizing c with
  | zero => rfl
  | succ k ih =>
    rw [Function.iterate_succ_apply, countDown, ih, Nat.sub_sub, Nat.add_comm 1]

/-! ### A pulse of the reset input -/

/-- R240, R243: a pulse of the reset input that is due leaves the reset values and the host's lists. -/
theorem runSteps_reset_pulse {s : State}
    (pins : s.pinChanges =
      [{ after := 0, level := s.params.resetActive }, { after := 0, level := !s.params.resetActive }]) :
    runSteps 2 s = .next { s.resetRegisters with pinChanges := [], resetPin := !s.params.resetActive } := by
  have first : step s = .next { s.resetRegisters with
      pinChanges := [{ after := 0, level := !s.params.resetActive }], resetPin := s.params.resetActive } := by
    rw [step_due_change pins, pinStep_active, pins, List.tail_cons]
  refine (runSteps_succ_next first).trans ((runSteps_succ_next (step_due_change rfl)).trans ?_)
  exact congrArg Host.Outcome.next (pinStep_inactive _)

/-- Settles O23: the polls before the pulse do not end the loop, the pulse leaves it pending with the reset values; a
poll of `wait` then reads BUSY = 0, and no poll of `waitDone` reads DONE = 1. -/
theorem resetDuringWait : Obligations.ResetDuringWait := by
  unfold Obligations.ResetDuringWait
  refine ⟨fun s k loop rest inv busy hr is_loop hm le pins => ?_, fun s rest turn hr idle hm => ?_,
    fun s rest n pins hr idle not_done hm => ?_⟩
  · have not_done : s.status.done = false := Bool.eq_false_iff.2 fun done => inv.not_busy_and_done ⟨busy, done⟩
    have polls : s.Polls := by
      rcases is_loop with rfl | rfl
      · exact .inl ⟨rest, hm, busy⟩
      · exact .inr ⟨rest, hm, not_done⟩
    have changes : s.ChangesAfter k := by simp [State.ChangesAfter, pins]
    have due : (s.polled k).pinChanges =
        [{ after := 0, level := s.params.resetActive }, { after := 0, level := !s.params.resetActive }] := by
      rw [State.polled, pins, iterate_countDown_cons, Nat.sub_self]
    have polled := runSteps_polls k s polls hr changes (.inr le)
    refine ⟨_, (runSteps_add polled).trans (runSteps_reset_pulse due), hm, ?_, rfl, rfl, rfl, rfl, regValue_zeroReg _,
      regValue_zeroReg _, regValue_zeroReg _, regValue_zeroReg _, rfl⟩
    simp [State.inReset]
  · refine ⟨_, step_wait (turn_of_hostTurn turn) hr hm, ?_, ?_, ?_⟩
    · simp [sameRegisters]
    · simp [idle, hm]
    · exact State.pollStep_responses ..
  · have changes : s.ChangesAfter n := by simp [State.ChangesAfter, pins]
    refine ⟨_, runSteps_polls n s (.inr ⟨rest, hm, not_done⟩) hr changes (.inl idle), hm, ?_⟩
    simp [sameRegisters, State.polled]

end Sys2Proof.Machine

/-! Proofs of the statements about every command (10_state.md, 30_encoding.md section 4): its frame, what it depends on
and the verdict flags. -/

namespace Sys2Proof.Machine

open Sys2Proof.Claim

/-! ### The frame -/

section
variable {s : State}

/-- R42, R53: a completion shows in the window at STATUS and at the words of RES only. -/
theorem readWord_complete {off : Nat} (aligned : off % 4 = 0) (not_status : off ≠ 0x008)
    (not_result : ¬ isResultWord s.params off) (out : Result) : (s.complete out).readWord off = s.readWord off := by
  unfold State.readWord
  rw [State.complete_params]
  rcases slotAt_cases (p := s.params) aligned with ⟨-, e⟩ | ⟨-, e⟩ | ⟨at_status, -⟩ | ⟨r, k, used, rfl, e⟩ |
    ⟨-, -, -, e⟩
  · rw [e]
  · rw [e]; rfl
  · exact absurd at_status not_status
  · rw [e]
    cases r with
    | opa => rfl
    | opb => rfl
    | opm => rfl
    | res => exact absurd ⟨k, used, rfl⟩ not_result
  · rw [e]

/-- R59: the same, byte by byte. -/
theorem windowByte_complete {off : Nat} (not_status : ¬(0x008 ≤ off ∧ off < 0x00C))
    (not_result : ¬(0x100 ≤ off ∧ off < 0x100 + 4 * s.params.NW)) (out : Result) :
    (s.complete out).windowByte off = s.windowByte off := by
  have word : ¬ isResultWord s.params (off - off % 4) := by
    rintro ⟨k, used, at_word⟩
    omega
  unfold State.windowByte
  rw [readWord_complete (by omega) (by omega) word]

end

/-- R40: an error leaves RES. -/
theorem completedRes_of_isErr {words : Nat} {old : Reg} {out : Result} (h : out.isErr = true) :
    completedRes words old out = old := by
  cases out with
  | ok r p ni => cases h
  | err c => rfl

/-- R40: a success overwrites RES. -/
theorem completedRes_of_not_isErr {words : Nat} {out : Result} (h : out.isErr = false) (old old' : Reg) :
    completedRes words old out = completedRes words old' out := by
  cases out with
  | ok r p ni => rfl
  | err c => cases h

/-- Settles O46: every command is the completion with an outcome. -/
theorem everyCommandCompletesWithFrame : Obligations.EveryCommandCompletesWithFrame := by
  unfold Obligations.EveryCommandCompletesWithFrame
  intro i s _
  refine ⟨_, exec_eq i s, rfl, Status.completed_ovr .., Status.completed_busy .., Status.completed_done ..,
    fun err => ?_, fun off not_status not_result => windowByte_complete not_status not_result _⟩
  rw [State.complete_status, Status.completed_err] at err
  exact completedRes_of_isErr err

/-! ### What the outcome depends on -/

/-- Of the STATUS before, a completion keeps OVR only. -/
theorem Status.completed_eq_with_ovr (st st' : Status) (out : Result) :
    st'.completed out = { st.completed out with ovr := st'.ovr } := by
  cases out <;> rfl

/-- Settles O48: the outcome is one of the parameters and the latches alone. -/
theorem outcomeDependsOnLatchesOnly : Obligations.OutcomeDependsOnLatchesOnly := by
  unfold Obligations.OutcomeDependsOnLatchesOnly
  intro i s s' params la lb lm
  have run := exec_eq i s'
  rw [State.opA, State.opB, State.opM, params, la, lb, lm] at run
  refine ⟨_, _, exec_eq i s, run, Status.completed_eq_with_ovr .., fun ok => ?_⟩
  rw [State.complete_status, Status.completed_err] at ok
  rw [State.complete_res, State.complete_res, params]
  exact completedRes_of_not_isErr ok _ _

/-- Settles O47: each command's outcome is a function that does not take the ignored operand. -/
theorem ignoredOperands : Obligations.IgnoredOperands := by
  unfold Obligations.IgnoredOperands
  intro s t x y
  refine ⟨fun h => ?_, fun h => ?_, fun h => ?_, fun h => ?_⟩
  · cases h; rfl
  · cases h; rfl
  · cases h; rfl
  · cases h; rfl

/-! ### The verdict flags -/

/-- R140: the code is 0 for COMPOSITE alone. -/
theorem roundCode_ne_zero_iff {o : RoundOutcome} : o.code ≠ 0 ↔ o ≠ .composite := by cases o <;> decide

/-- R54: a register of any width holds the codes and verdicts. -/
theorem regValue_store_small {p : Params} (wf : p.wf = true) {v : Nat} (small : v < 2 ^ 32) :
    regValue (regOfNat p.NW v) = v :=
  regValue_store wf (small.trans_le (Nat.pow_le_pow_right two_pos ((params_wf_iff p).1 wf).2.1))

/-- R123: there is an inverse exactly when the modulus is above 1 and coprime to the operand. -/
theorem modInverse_eq_none_iff {a m : Nat} : modInverse a m = none ↔ Nat.gcd a m ≠ 1 ∨ m ≤ 1 := by
  refine ⟨fun none => ?_, fun h => modInverse_none h.symm⟩
  by_contra inverse
  push Not at inverse
  obtain ⟨x, some, -⟩ := modInverse_some inverse.2 inverse.1
  rw [none] at some
  cases some

/-- R142: what MRWIT leaves in RES when its operands are good. -/
theorem mrwit_verdict {s : State} (wf : s.params.wf = true) {t : State} (h : exec .mrwit s = .next t) :
    (¬(regValue s.lm < 3 ∨ regValue s.lm % 2 = 0) ∧ mrRound (regValue s.la) (regValue s.lm) ≠ .composite) ↔
      t.status.err = false ∧ regValue t.res ≠ 0 := by
  by_cases bad : regValue s.lm < 3 ∨ regValue s.lm % 2 = 0
  · rw [exec_mrwit_of_badarg bad] at h
    cases h
    exact iff_of_false (fun run => run.1 bad) nofun
  · rw [exec_mrwit_of_mrRound (by omega) (by omega) rfl] at h
    cases h
    have code := regValue_store_small wf
      ((roundCode_le (mrRound (regValue s.la) (regValue s.lm))).trans_lt (by decide : 2 < 2 ^ 32))
    simp only [completedOk, code, roundCode_ne_zero_iff, bad, not_false_eq_true, true_and]

/-- R144: what ISPRIME leaves in RES. -/
theorem isprime_verdict {s : State} (wf : s.params.wf = true) {t : State} (h : exec .isprime s = .next t) :
    isPrimeAlg s.params.witnesses (regValue s.lm) = true ↔ regValue t.res = 1 := by
  rw [exec_isprime_of_isPrimeAlg rfl] at h
  cases h
  have stored := regValue_store_small wf
    ((Bool.toNat_le (isPrimeAlg s.params.witnesses (regValue s.lm))).trans_lt (by decide : 1 < 2 ^ 32))
  rw [completedOk, stored, Bool.toNat_eq_one]

/-- Settles O51: the flags are the outcome's, and RES holds the verdict. -/
theorem verdictFlags : Obligations.VerdictFlags := by
  unfold Obligations.VerdictFlags
  intro i s wf
  refine ⟨_, exec_eq i s, ?_, ?_⟩
  · rw [State.complete_status, Status.completed_noinv, execReference_noinv_iff, modInverse_eq_none_iff, State.opA,
      State.opM]
  · rw [State.complete_status, Status.completed_prime, execReference_prime_iff]
    refine or_congr (and_congr_right ?_) (and_congr_right ?_)
    · rintro rfl; exact mrwit_verdict wf (exec_eq .mrwit s)
    · rintro rfl; exact isprime_verdict wf (exec_eq .isprime s)

end Sys2Proof.Machine

/-! Proofs of the statements about primality testing (42_primality.md): which verdicts are proofs, and which are not. -/

namespace Sys2Proof.Machine

open Sys2Proof.Claim

/-! ### The witness list -/

/-- R143: the test asks whether some witness rejects, and so does not see the order. -/
theorem isPrimeAlg_perm {ws ws' : List Nat} (perm : ws.Perm ws') (n : Nat) : isPrimeAlg ws n = isPrimeAlg ws' n := by
  rw [Bool.eq_iff_iff, isPrimeAlg_eq_true, isPrimeAlg_eq_true]
  simp only [perm.mem_iff]

/-- Settles O52: the verdict is all that the completion takes from the list. -/
theorem witnessOrderIrrelevant : Obligations.WitnessOrderIrrelevant := by
  unfold Obligations.WitnessOrderIrrelevant
  intro s ws perm
  exact ⟨_, exec_isprime_of_isPrimeAlg rfl, exec_isprime_of_isPrimeAlg (isPrimeAlg_perm perm _)⟩

/-! ### Ending a round early -/

/-- R146: from 1 the squares stay 1 and never reach n - 1. -/
theorem squareLoop_one {n : Nat} (hn : 3 ≤ n) : ∀ k, squareLoop k 1 n = .composite
  | 0 => rfl
  | k + 1 => by
    have one : mulMod 1 1 n = 1 := Nat.mod_eq_of_lt (by omega)
    rw [squareLoop, one, if_neg (by omega), squareLoop_one hn k]

/-- Settles O53, by induction on the squarings: the early end is where the model's loop runs on 1. -/
theorem earlyRoundEndSameOutcome : Obligations.EarlyRoundEndSameOutcome := by
  unfold Obligations.EarlyRoundEndSameOutcome
  intro k x n hn
  induction k generalizing x with
  | zero => rfl
  | succ k ih =>
    rw [squareLoopEarly, squareLoop, mulMod]
    split
    next => rfl
    next =>
      split
      next one => rw [one, squareLoop_one hn]
      next => exact ih _

/-! ### A prime is never rejected -/

/-- An equation of residues, read back as one of remainders. -/
theorem mod_eq_of_natCast_eq {n x y : Nat} (h : (x : ZMod n) = (y : ZMod n)) (lt : y < n) : x % n = y := by
  rw [(ZMod.natCast_eq_natCast_iff' x y n).1 h, Nat.mod_eq_of_lt lt]

/-- R17, R140: no witness but 0 rejects an odd prime, because 1 has only the square roots 1 and -1 in its field. -/
theorem not_roundRejects_of_prime {a n : Nat} (prime : n.Prime) (hn : 3 ≤ n) (ha : a ≠ 0) : ¬ RoundRejects a n := by
  rintro ⟨lt, d, k, -, split, first, squares⟩
  have field : Fact n.Prime := ⟨prime⟩
  have unit : (a : ZMod n) ≠ 0 := by
    rw [Ne, ZMod.natCast_eq_zero_iff]
    exact Nat.not_dvd_of_pos_of_lt (Nat.pos_of_ne_zero ha) lt
  have fermat : ((a : ZMod n) ^ d) ^ 2 ^ k = 1 := by
    rw [← pow_mul, ← split, ZMod.pow_card_sub_one_eq_one unit]
  rcases pow_two_pow_eq_one _ k fermat with one | ⟨r, hr, minus_one⟩
  · exact first (mod_eq_of_natCast_eq (by push_cast; exact one) (by omega))
  · refine squares r hr (mod_eq_of_natCast_eq ?_ (by omega))
    rw [Nat.cast_sub (by omega), ZMod.natCast_self, pow_mul]
    push_cast
    rw [minus_one, zero_sub]

/-- Settles O54: the round of an odd prime is skipped or passes. -/
theorem mrwitNeverRejectsPrime : Obligations.MrwitNeverRejectsPrime := by
  unfold Obligations.MrwitNeverRejectsPrime
  intro s wf prime not_two ha
  have hn : 3 ≤ regValue s.lm := by have := prime.two_le; omega
  have odd : regValue s.lm % 2 = 1 := prime.eq_two_or_odd.resolve_left not_two
  have passes : mrRound (regValue s.la) (regValue s.lm) ≠ .composite :=
    mt (mrRound_eq_composite odd hn).1 (not_roundRejects_of_prime prime hn ha)
  have run := exec_mrwit_of_mrRound hn odd rfl
  obtain ⟨err, res⟩ := (mrwit_verdict wf run).1 ⟨by omega, passes⟩
  exact ⟨_, run, err, bne_iff_ne.2 passes, res⟩

/-- Settles O55: no witness of the list rejects. -/
theorem isprimeAcceptsEveryPrime : Obligations.IsprimeAcceptsEveryPrime := by
  unfold Obligations.IsprimeAcceptsEveryPrime
  intro s no_zero prime
  have accepts : isPrimeAlg s.params.witnesses (regValue s.lm) = true := by
    rw [isPrimeAlg_eq_true]
    rcases prime.eq_two_or_odd with two | odd
    · exact .inl two
    · by_cases three : regValue s.lm = 3
      · exact .inr (.inl three)
      · have := prime.two_le
        exact .inr (.inr ⟨by omega, odd, fun a mem =>
          not_roundRejects_of_prime prime (by omega) fun zero => no_zero (zero ▸ mem)⟩)
  exact exec_isprime_of_isPrimeAlg accepts

/-! ### A composite that is accepted -/

/-- R145: the strong pseudoprime to the three bases. -/
theorem isPrimeAlg_pseudoprime : isPrimeAlg [2, 7, 61] 4759123141 = true := by
  decide

/-- Settles O56: the test is evaluated on the pseudoprime. -/
theorem isprimeIsNoOracle : Obligations.IsprimeIsNoOracle := by
  unfold Obligations.IsprimeIsNoOracle
  intro s witnesses value
  refine ⟨exec_isprime_of_isPrimeAlg ?_, ?_⟩
  · rw [witnesses, value, isPrimeAlg_pseudoprime]
  · rw [value]

end Sys2Proof.Machine

/-! Proofs of the statements about the host scripts of 30_encoding.md section 7: loading an operand, and a whole run. -/

namespace Sys2Proof.Machine

open Sys2Proof.Claim

/-! ### The words of a value -/

/-- R54: word k of a value, as `ldop` writes it. -/
def wordOf (v k : Nat) : BusWord := BitVec.ofNat 32 (v / 2 ^ (32 * k))

theorem wordOf_div (v k : Nat) : wordOf (v / 2 ^ 32) k = wordOf v (k + 1) := by
  rw [wordOf, wordOf, Nat.div_div_eq_div_mul, ← pow_add, Nat.mul_succ, Nat.add_comm 32]

theorem regWord_regOfNat {words k : Nat} (hk : k < words) (v : Nat) : regWord (regOfNat words v) k = wordOf v k := by
  induction words generalizing v k with
  | zero => exact absurd hk (Nat.not_lt_zero k)
  | succ words ih =>
    cases k with
    | zero => simp [regOfNat, regWord, wordOf]
    | succ k => exact (ih (Nat.lt_of_succ_lt_succ hk) _).trans (wordOf_div v k)

/-- A register is its words. -/
theorem eq_of_regWord {x y : Reg} (length : x.length = y.length) (words : ∀ k < x.length, regWord x k = regWord y k) :
    x = y := by
  refine List.ext_getElem length fun k hx hy => ?_
  have word := words k hx
  rwa [regWord, regWord, List.getD_eq_getElem _ _ hx, List.getD_eq_getElem _ _ hy] at word

theorem map_regWord_range (x : Reg) : (List.range x.length).map (regWord x) = x :=
  eq_of_regWord (by simp) fun k hk => by
    have hk : k < x.length := by simpa using hk
    simp [regWord, hk]

/-- R55, R81: the register after the words ks of v have been written in turn. -/
def loadWords (v : Nat) (ks : List Nat) (x : Reg) : Reg := ks.foldl (fun x k => setRegWord x k (wordOf v k)) x

theorem loadWords_cons (v k : Nat) (ks : List Nat) (x : Reg) :
    loadWords v (k :: ks) x = loadWords v ks (setRegWord x k (wordOf v k)) := rfl

theorem loadWords_length (v : Nat) (ks : List Nat) (x : Reg) : (loadWords v ks x).length = x.length := by
  induction ks generalizing x with
  | nil => rfl
  | cons k ks ih => rw [loadWords_cons, ih, setRegWord_length]

theorem regWord_loadWords (v j : Nat) : ∀ (ks : List Nat) (x : Reg), (∀ k ∈ ks, k < x.length) →
    regWord (loadWords v ks x) j = if j ∈ ks then wordOf v j else regWord x j
  | [], x, _ => by simp [loadWords]
  | k :: ks, x, used => by
    have first : k < x.length := used k List.mem_cons_self
    rw [loadWords_cons, regWord_loadWords v j ks _ fun l mem => by
      rw [setRegWord_length]; exact used l (List.mem_cons_of_mem k mem), regWord_setRegWord first]
    by_cases later : j ∈ ks
    · simp [later]
    · by_cases here : j = k
      · simp [here]
      · simp [later, here]

/-- R81: all the words of a register together are the value. -/
theorem loadWords_range {words : Nat} {x : Reg} (length : x.length = words) (v : Nat) :
    loadWords v (List.range words) x = regOfNat words v := by
  have total : (loadWords v (List.range words) x).length = words := (loadWords_length ..).trans length
  refine eq_of_regWord (total.trans (regOfNat_length ..).symm) fun k hk => ?_
  rw [total] at hk
  rw [regWord_regOfNat hk, regWord_loadWords _ _ _ _ fun l mem => length ▸ List.mem_range.1 mem,
    if_pos (List.mem_range.2 hk)]

/-! ### Loading an operand -/

/-- The state after n writes by an idle machine's host that left x in a register, and the moves rest pending. -/
def State.loaded (s : State) (r : RegName) (x : Reg) (rest : List HostMove) (n : Nat) : State :=
  { s.setReg x r with
    host := rest, delay := s.delay - n, pinChanges := countDown^[n] s.pinChanges
    responses := List.replicate n .ok ++ s.responses }

section
variable (s : State) (r : RegName) (x : Reg) (rest : List HostMove) (n : Nat)

@[simp] theorem State.loaded_params : (s.loaded r x rest n).params = s.params := State.setReg_params ..
@[simp] theorem State.loaded_status : (s.loaded r x rest n).status = s.status := State.setReg_status ..
@[simp] theorem State.loaded_pinChanges : (s.loaded r x rest n).pinChanges = countDown^[n] s.pinChanges := rfl
@[simp] theorem State.loaded_inReset : (s.loaded r x rest n).inReset = s.inReset := by cases r <;> rfl

theorem State.loaded_reg {r : RegName} (not_res : r ≠ .res) : (s.loaded r x rest n).reg r = x := by
  cases r with
  | res => exact absurd rfl not_res
  | _ => rfl

theorem State.loaded_sameRegisters : sameRegisters (s.setReg x r) (s.loaded r x rest n) := by
  simp [sameRegisters, State.loaded]

theorem State.loaded_zero : s.loaded r (s.reg r) s.host 0 = s := by cases r <;> rfl

theorem State.loaded_succ (y : Reg) (moves : List HostMove) :
    (s.loaded r y moves 1).loaded r x rest n = s.loaded r x rest (n + 1) := by
  have left : s.delay - 1 - n = s.delay - (n + 1) := by omega
  cases r <;> simp [State.loaded, State.setReg, left, List.replicate_succ']

end

theorem changesAfter_of_no_change {s : State} (pins : s.pinChanges = []) (n : Nat) : s.ChangesAfter n := by
  simp [State.ChangesAfter, pins]

/-- R216, R39: an idle machine whose reset input is left alone waits for its host. -/
theorem turn_of_idle {s : State} {n : Nat} (idle : s.status.busy = false) (changes : s.ChangesAfter (n + 1)) :
    s.turn = .host :=
  turn_of_hostTurn ⟨quietFor_mono (Nat.zero_le n) (changesAfter_succ_iff.1 changes), .inl idle⟩

/-- R55: one write of a word of a register. -/
theorem step_word_write {s : State} {r : RegName} {k : Nat} {w : BusWord} {moves : List HostMove}
    (wf : s.params.wf = true) (turn : s.turn = .host) (hr : s.inReset = false) (used : k < s.params.NW)
    (hm : s.host = wr (r.slot + 4 * k) w :: moves) :
    step s = .next (s.loaded r (setRegWord (s.reg r) k w) moves 1) := by
  rw [step_write turn hr hm, busWrite_operand (s := s.elapse.withHost moves) wf used,
    busWriteResponse_legal (legalAccess_slot wf r used)]
  cases r <;> rfl

/-- R55, R81: the writes of words of v to an operand register. -/
theorem runSteps_word_writes {r : RegName} (not_res : r ≠ .res) (v : Nat) (rest : List HostMove) :
    ∀ (ks : List Nat) (s : State), s.params.wf = true → s.status.busy = false → s.inReset = false →
      s.ChangesAfter ks.length → (∀ k ∈ ks, k < s.params.NW) →
      s.host = ks.map (fun k => wr (r.slot + 4 * k) (wordOf v k)) ++ rest →
      runSteps ks.length s = .next (s.loaded r (loadWords v ks (s.reg r)) rest ks.length)
  | [], s, _, _, _, _, _, hm => by
    rw [show rest = s.host from hm.symm]
    exact congrArg Host.Outcome.next (s.loaded_zero r).symm
  | k :: ks, s, wf, idle, hr, changes, used, hm => by
    have first := step_word_write wf (turn_of_idle idle changes) hr (used k List.mem_cons_self) hm
    have later := runSteps_word_writes not_res v rest ks
      (s.loaded r (setRegWord (s.reg r) k (wordOf v k)) (ks.map (fun k => wr (r.slot + 4 * k) (wordOf v k)) ++ rest) 1)
      (by simpa using wf) (by simpa using idle) (by simpa using hr) changes.elapse
      (fun l mem => by simpa using used l (List.mem_cons_of_mem k mem)) rfl
    rw [State.loaded_reg _ _ _ _ not_res, ← loadWords_cons, State.loaded_succ] at later
    exact (runSteps_succ_next first).trans later

/-- R81: `ldop` leaves the value's words in the register. -/
theorem runSteps_ldop {s : State} {r : RegName} (not_res : r ≠ .res) {v : Nat} {rest : List HostMove}
    (changes : s.ChangesAfter s.params.NW) (wf : s.params.wf = true) (fits : fitsWidth s.params (s.reg r))
    (idle : s.status.busy = false) (hr : s.inReset = false) (hm : s.host = ldop s.params r v ++ rest) :
    runSteps s.params.NW s = .next (s.loaded r (regOfNat s.params.NW v) rest s.params.NW) := by
  have run := runSteps_word_writes not_res v rest (List.range s.params.NW) s wf idle hr (by rwa [List.length_range])
    (fun k mem => List.mem_range.1 mem) hm
  rwa [List.length_range, loadWords_range fits] at run

/-- Settles O59: the three operand registers are loaded alike. -/
theorem ldopLoadsOperand : Obligations.LdopLoadsOperand := by
  unfold Obligations.LdopLoadsOperand
  intro s v rest inv idle hr quiet hv
  have changes : s.ChangesAfter s.params.NW := fun c first => (quiet c first).le
  have stored := regValue_store inv.params_wf hv
  have load : ∀ r : RegName, r ≠ .res → fitsWidth s.params (s.reg r) → s.host = ldop s.params r v ++ rest →
      runSteps s.params.NW s = .next (s.loaded r (regOfNat s.params.NW v) rest s.params.NW) :=
    fun r not_res fits hm => runSteps_ldop not_res changes inv.params_wf fits idle hr hm
  exact ⟨fun hm => ⟨_, load .opa nofun inv.opa_fits hm, rfl, stored, State.loaded_sameRegisters ..⟩,
    fun hm => ⟨_, load .opb nofun inv.opb_fits hm, rfl, stored, State.loaded_sameRegisters ..⟩,
    fun hm => ⟨_, load .opm nofun inv.opm_fits hm, rfl, stored, State.loaded_sameRegisters ..⟩⟩

/-! ### Waiting for a command -/

theorem runSteps_one {s t : State} (h : step s = .next t) : runSteps 1 s = .next t := runSteps_succ_next h

/-- R39, R81: `wait` on a command in flight ends after its completion. -/
theorem run_wait {s : State} {rest : List HostMove} (busy : s.status.busy = true) (hr : s.inReset = false)
    (pins : s.pinChanges = []) (hm : s.host = .wait :: rest) :
    ∃ k t, runSteps k s = .next t ∧ t.host = rest ∧ t.pinChanges = [] ∧ sameRegisters (s.complete s.outcome) t := by
  have polled := runSteps_polls s.delay s (.inl ⟨rest, hm, busy⟩) hr (changesAfter_of_no_change pins _) (.inr le_rfl)
  have no_change : (s.polled s.delay).pinChanges = [] := by rw [State.polled, pins, iterate_countDown_nil]
  have due : completionDue (s.polled s.delay) :=
    ⟨changesAfter_of_no_change no_change 1, busy, hr, Nat.sub_self _⟩
  have completes : step (s.polled s.delay) = .next ((s.polled s.delay).complete s.outcome) :=
    step_engine (completionDue_iff.1 due)
  have turn : ((s.polled s.delay).complete s.outcome).turn = .host :=
    turn_of_idle (n := 0) (Status.completed_busy ..) (changesAfter_of_no_change no_change 1)
  have ends := step_wait turn hr hm
  refine ⟨_, _, (runSteps_add polled).trans ((runSteps_succ_next completes).trans (runSteps_one ends)), ?_, ?_, ?_⟩
  · simp
  · simp [no_change, countDown]
  · simp [sameRegisters, State.polled]

/-- R36, R40, R81: an idle machine runs a command that its host writes and waits for, on the operand registers. -/
theorem run_command {s : State} {i : Instr} {rest : List HostMove} (pins : s.pinChanges = [])
    (hm : s.host = cmd i :: .wait :: rest) (idle : s.status.busy = false) (hr : s.inReset = false) :
    ∃ k t, runSteps k s = .next t ∧ t.host = rest ∧ t.pinChanges = [] ∧
      sameRegisters ((s.accept (encode i)).complete (s.accept (encode i)).outcome) t := by
  have turn : s.turn = .host := turn_of_idle (n := 0) idle (changesAfter_of_no_change pins 1)
  have accepts := step_acceptsCommand (v := encode i) turn hr ⟨_, hm⟩ idle
  rw [hm, List.tail_cons] at accepts
  obtain ⟨k, t, run, moves, no_change, same⟩ :=
    run_wait (s := ((s.elapse.withHost (.wait :: rest)).accept (encode i)).drawLatency.respond .ok) rfl hr
      (by simp [pins, countDown]) rfl
  exact ⟨k + 1, t, (runSteps_succ_next accepts).trans run, moves, no_change, same⟩

/-! ### Reading -/

/-- The state after reads at the given offsets, when the moves rest are still pending. -/
def State.answered (s : State) (offs : List Nat) (rest : List HostMove) : State :=
  { s with
    host := rest, delay := s.delay - offs.length, pinChanges := countDown^[offs.length] s.pinChanges
    responses := (offs.map fun off => s.busRead off 4).reverse ++ s.responses }

theorem State.answered_cons (s : State) (off : Nat) (offs : List Nat) (moves rest : List HostMove) :
    (s.answered [off] moves).answered offs rest = s.answered (off :: offs) rest := by
  have left : s.delay - 1 - offs.length = s.delay - (offs.length + 1) := by omega
  have reads : (fun o => (s.answered [off] moves).busRead o 4) = fun o => s.busRead o 4 := rfl
  rw [State.answered, reads]
  simp [State.answered, left]

/-- R58: reads by the host of an idle machine. -/
theorem runSteps_reads (rest : List HostMove) : ∀ (offs : List Nat) (s : State), s.status.busy = false →
    s.inReset = false → s.ChangesAfter offs.length → s.host = offs.map rd ++ rest →
    runSteps offs.length s = .next (s.answered offs rest)
  | [], s, _, _, _, hm => by
    rw [show rest = s.host from hm.symm]
    exact congrArg Host.Outcome.next (by cases s; rfl)
  | off :: offs, s, idle, hr, changes, hm => by
    have first : step s = .next (s.answered [off] (offs.map rd ++ rest)) := step_read (turn_of_idle idle changes) hr hm
    have later := runSteps_reads rest offs (s.answered [off] (offs.map rd ++ rest)) idle hr changes.elapse rfl
    rw [State.answered_cons] at later
    exact (runSteps_succ_next first).trans later

/-- R81: the offsets that `getres` reads. -/
def resultOffsets (p : Params) : List Nat := (List.range p.NW).map (RegName.res.slot + 4 * ·)

theorem getres_eq (p : Params) : getres p = (resultOffsets p).map rd := by
  rw [resultOffsets, List.map_map]
  rfl

/-- R54, R81: what `getres` reads is RES. -/
theorem busRead_resultOffsets {s : State} (wf : s.params.wf = true) (fits : fitsWidth s.params s.res) :
    ((resultOffsets s.params).map fun off => s.busRead off 4) = s.res.map .data := by
  have word : ∀ k ∈ List.range s.params.NW,
      s.busRead (RegName.res.slot + 4 * k) 4 = .data (regWord s.res k) := by
    intro k mem
    have used := List.mem_range.1 mem
    rw [busRead_legal (legalAccess_slot wf .res used), State.readWord, slotAt_reg wf .res used]
    rfl
  have words : (List.range s.params.NW).map (regWord s.res) = s.res := by rw [← fits, map_regWord_range]
  calc ((resultOffsets s.params).map fun off => s.busRead off 4)
      = (List.range s.params.NW).map (Response.data ∘ regWord s.res) := List.map_map.trans (List.map_congr_left word)
    _ = s.res.map .data := by rw [← List.map_map, words]

/-- R81: the end of `run`: the host reads STATUS and RES. -/
theorem run_report {s : State} (pins : s.pinChanges = []) (hm : s.host = rd 0x008 :: getres s.params)
    (wf : s.params.wf = true) (fits : fitsWidth s.params s.res) (idle : s.status.busy = false)
    (hr : s.inReset = false) :
    ∃ k t, runSteps k s = .next t ∧ t.host = [] ∧ sameRegisters s t ∧
      t.responses = (s.res.map .data).reverse ++ .data s.status.word :: s.responses := by
  have moves : s.host = (0x008 :: resultOffsets s.params).map rd ++ [] := by
    rw [hm, getres_eq, List.append_nil, List.map_cons]
  refine ⟨_, _, runSteps_reads [] _ s idle hr (changesAfter_of_no_change pins _) moves, rfl, ?_, ?_⟩
  · simp [sameRegisters, State.answered]
  · rw [State.answered, List.map_cons, busRead_resultOffsets wf fits, List.reverse_cons, List.append_assoc]
    rfl

/-! ### A whole run -/

/-- The registers and the pending moves of an idle machine whose operands A, B, M have been loaded. -/
theorem run_loads {s : State} {a b m : Nat} {rest : List HostMove} (inv : Inv s) (idle : s.status.busy = false)
    (hr : s.inReset = false) (pins : s.pinChanges = [])
    (hm : s.host = ldop s.params .opa a ++ (ldop s.params .opb b ++ (ldop s.params .opm m ++ rest))) :
    ∃ k t, runSteps k s = .next t ∧ t.host = rest ∧ t.pinChanges = [] ∧
      sameRegisters { s with
        opa := regOfNat s.params.NW a, opb := regOfNat s.params.NW b, opm := regOfNat s.params.NW m } t := by
  have quiet : ∀ (u : State) (r : RegName) (x : Reg) (moves : List HostMove), u.pinChanges = [] →
      (u.loaded r x moves s.params.NW).pinChanges = [] :=
    fun u r x moves no_change => by rw [State.loaded_pinChanges, no_change, iterate_countDown_nil]
  have pins_a := quiet s .opa (regOfNat s.params.NW a) (ldop s.params .opb b ++ (ldop s.params .opm m ++ rest)) pins
  have pins_b := quiet _ .opb (regOfNat s.params.NW b) (ldop s.params .opm m ++ rest) pins_a
  have load_a := runSteps_ldop (r := .opa) nofun (changesAfter_of_no_change pins _) inv.params_wf inv.opa_fits idle hr
    hm
  have load_b := runSteps_ldop (r := .opb) nofun (changesAfter_of_no_change pins_a _) inv.params_wf inv.opb_fits idle hr
    rfl
  have load_m := runSteps_ldop (r := .opm) nofun (changesAfter_of_no_change pins_b _) inv.params_wf inv.opm_fits idle hr
    rfl
  refine ⟨_, _, (runSteps_add load_a).trans ((runSteps_add load_b).trans load_m), rfl, quiet _ _ _ _ pins_b, ?_⟩
  simp [sameRegisters, State.loaded, State.setReg]

/-- The state that a run of steps has reached, written out from the registers. -/
theorem exists_eq_of_sameRegisters {s t : State} (same : sameRegisters s t) : ∃ pins moves answers latency delay,
    t = { s with
      pinChanges := pins, host := moves, responses := answers, latency := latency, delay := delay } :=
  ⟨_, _, _, _, _, eq_of_sameRegisters same⟩

/-- Settles O60: the operands are loaded, the command runs on them, and the host reads what it reports. -/
theorem runScriptEndToEnd : Obligations.RunScriptEndToEnd := by
  unfold Obligations.RunScriptEndToEnd
  intro s i a b m inv idle hr pins ha hb hm script
  have moves : s.host = ldop s.params .opa a ++ (ldop s.params .opb b ++ (ldop s.params .opm m ++
      (cmd i :: .wait :: rd 0x008 :: getres s.params))) := by
    simp [script, runScript]
  have stored : ∀ {x}, x < 2 ^ s.params.W → regValue (regOfNat s.params.NW x) = x := regValue_store inv.params_wf
  obtain ⟨j, t, loads, moves_t, pins_t, same⟩ := run_loads inv idle hr pins moves
  obtain ⟨_, _, _, _, _, written_out⟩ := exists_eq_of_sameRegisters same
  have outcome : (t.accept (encode i)).outcome = execReference s.params (encode i) a b m := by
    rw [written_out, State.outcome, State.opA, State.opB, State.opM]
    simp [stored, ha, hb, hm]
  subst written_out
  obtain ⟨k, u, runs, moves_u, pins_u, same⟩ := run_command pins_t moves_t idle hr
  rw [outcome] at same
  obtain ⟨_, _, _, _, _, rfl⟩ := exists_eq_of_sameRegisters same
  obtain ⟨l, v, reads, finished, same, responses⟩ := run_report pins_u moves_u inv.params_wf
    (completedRes_length inv.res_fits _) (Status.completed_busy ..) hr
  obtain ⟨_, _, _, _, _, rfl⟩ := exists_eq_of_sameRegisters same
  refine ⟨j + (k + l), _, _, _, (runSteps_add loads).trans ((runSteps_add runs).trans reads),
    ⟨finished, Status.completed_busy ..⟩, rfl, stored ha, stored hb, stored hm, fun r p ni ok => ?_, fun c err => ?_,
    responses, completedRes_length inv.res_fits _, rfl⟩
  · change regValue (completedRes s.params.NW s.res (execReference s.params (encode i) a b m)) = r ∧
      Status.accepted.completed (execReference s.params (encode i) a b m) = _
    rw [ok]
    exact ⟨stored (execReference_lt inv.params_wf ha hb hm ok), rfl⟩
  · change completedRes s.params.NW s.res (execReference s.params (encode i) a b m) = s.res ∧
      Status.accepted.completed (execReference s.params (encode i) a b m) = _
    rw [err]
    exact ⟨rfl, rfl⟩

end Sys2Proof.Machine
